-- ==== Sys2Proof/Word.lean ====
section
/-! DEFINITION. The two bit-vector types of the machine: the 16-bit word and the 8-bit byte (R6, R8, R21). -/

namespace Sys2Proof

/-- A 16-bit unsigned word: a register value, an address, a literal, the frame counter (R8, R21, R31).
Its `+` and `-` wrap modulo 2^16, as `u16` does. -/
abbrev Word := BitVec 16

/-- One byte of Memory or of the instruction stream (R8, R50, R80). -/
abbrev Byte := BitVec 8

end Sys2Proof
end

