-- ==== Sys2Proof/Syntax.lean ====
section
/-! DEFINITION. Registers, opcodes, operand kinds and instructions (R20, R81, R88, R89). -/

namespace Sys2Proof

/-- The 12 registers, in the declaration order that fixes their indices (R20). -/
inductive Reg where
  | ip | acc | r1 | r2 | r3 | r4 | r5 | r6 | r7 | r8 | sp | fp
  deriving DecidableEq, Repr

/-- The 12 assigned opcodes (R88). -/
inductive Opcode where
  | movLitReg | movRegReg | movRegMem | movMemReg | addRegReg | jmpNotEq
  | pshLit | pshReg | popReg | calLit | calReg | ret
  deriving DecidableEq, Repr

/-- The four operand kinds of R81. -/
inductive OperandKind where
  /-- `R`: one byte, a register selected modulo 12. -/
  | register
  /-- `L`: two bytes, a big-endian 16-bit literal. -/
  | literal16
  /-- `A`: two bytes, a big-endian 16-bit byte address. -/
  | address16
  /-- `B`: one byte, an address 0x00..0xFF. -/
  | address8
  deriving DecidableEq, Repr

/-- One constructor per row of the opcode table (R88), operands in fetch order, and `unassigned`, the row of
the 244 opcode bytes outside the 12 (R89). A register operand is the register its byte selects (R23). -/
inductive Instr where
  | movLitReg (lit : Word) (dst : Reg)
  | movRegReg (src dst : Reg)
  | movRegMem (src : Reg) (addr : Word)
  | movMemReg (addr : Word) (dst : Reg)
  | addRegReg (src1 src2 : Reg)
  | jmpNotEq (lit : Word) (target : Byte)
  | pshLit (lit : Word)
  | pshReg (src : Reg)
  | popReg (dst : Reg)
  | calLit (target : Word)
  | calReg (src : Reg)
  | ret
  | unassigned (op : Byte)
  deriving DecidableEq, Repr

end Sys2Proof
end

