-- ==== Sys2Proof/Decode.lean ====
section
/-! DEFINITION. Byte order, register selection, the opcode map, the decoder and the encoder (R8, R23, R80 to R93). -/

namespace Sys2Proof

/-! ## Byte order (R8, R58) -/

/-- `a : b`, the word whose high byte is `hi` (R8). -/
def joinBytes (hi lo : Byte) : Word := hi ++ lo

/-- `w[15:8]`, the byte of a word at the lower address (R8, R58). -/
def hiByte (w : Word) : Byte := w.extractLsb' 8 8

/-- `w[7:0]`, the byte of a word at the higher address (R8, R58). -/
def loByte (w : Word) : Byte := w.extractLsb' 0 8

/-- `zext_16(b)` (R8): an 8-bit address as a 16-bit one (R81, kind `B`). -/
def zeroExtend16 (b : Byte) : Word := b.setWidth 16

/-! ## Register operands (R20, R23, R93) -/

/-- A register's index (R20). -/
def Reg.index : Reg → Nat
  | .ip => 0 | .acc => 1 | .r1 => 2 | .r2 => 3 | .r3 => 4 | .r4 => 5
  | .r5 => 6 | .r6 => 7 | .r7 => 8 | .r8 => 9 | .sp => 10 | .fp => 11

/-- A register's byte offset in the 24-byte register buffer (R20, R33). -/
def Reg.byteOffset (r : Reg) : Nat := r.index * 2

/-- The register whose index is `n mod 12` (R20, R23). -/
def Reg.ofIndex (n : Nat) : Reg :=
  match n % 12 with
  | 0 => .ip | 1 => .acc | 2 => .r1 | 3 => .r2 | 4 => .r3 | 5 => .r4
  | 6 => .r5 | 7 => .r6 | 8 => .r7 | 9 => .r8 | 10 => .sp | _ => .fp

/-- `resolveOperandIndex`: the register an operand byte selects, `b mod 12` (R23, R85, R93). -/
def resolveReg (b : Byte) : Reg := Reg.ofIndex b.toNat

/-- The canonical operand byte of a register, its index (R93). -/
def Reg.byte (r : Reg) : Byte := BitVec.ofNat 8 r.index

/-! ## The opcode map (R81, R82, R88, R90) -/

/-- The 12 opcodes in the table's order (R88). -/
def Opcode.all : List Opcode :=
  [.movLitReg, .movRegReg, .movRegMem, .movMemReg, .addRegReg, .jmpNotEq,
   .pshLit, .pshReg, .popReg, .calLit, .calReg, .ret]

/-- The opcode byte (R88). -/
def Opcode.byte : Opcode → Byte
  | .movLitReg => 0x10 | .movRegReg => 0x11 | .movRegMem => 0x12 | .movMemReg => 0x13
  | .addRegReg => 0x14 | .jmpNotEq => 0x15 | .pshLit => 0x17 | .pshReg => 0x18
  | .popReg => 0x1A | .calLit => 0x5A | .calReg => 0x5B | .ret => 0x5C

/-- The opcode an opcode byte names; `none` for the 244 unassigned bytes (R88, R89). -/
def Opcode.ofByte (b : Byte) : Option Opcode := Opcode.all.find? fun o => o.byte == b

/-- How many bytes an operand takes (R81). -/
def OperandKind.size : OperandKind → Nat
  | .register => 1 | .literal16 => 2 | .address16 => 2 | .address8 => 1

/-- An opcode's operands in fetch order (R88). -/
def Opcode.operands : Opcode → List OperandKind
  | .movLitReg => [.literal16, .register]
  | .movRegReg => [.register, .register]
  | .movRegMem => [.register, .address16]
  | .movMemReg => [.address16, .register]
  | .addRegReg => [.register, .register]
  | .jmpNotEq => [.literal16, .address8]
  | .pshLit => [.literal16]
  | .pshReg => [.register]
  | .popReg => [.register]
  | .calLit => [.address16]
  | .calReg => [.register]
  | .ret => []

/-- The operands that follow an opcode byte: none for an unassigned one (R88, R89). -/
def operandsOf (op : Byte) : List OperandKind :=
  match Opcode.ofByte op with
  | some o => o.operands
  | none => []

/-- An instruction's length in bytes, fixed by its opcode byte alone (R80, R90). -/
def lengthOf (op : Byte) : Nat := 1 + ((operandsOf op).map OperandKind.size).sum

/-! ## The decoder -/

/-- Why a list of bytes is no instruction: it ends too early. Every byte value is legal everywhere (R89, R92). -/
inductive DecodeError where
  /-- There is no opcode byte. -/
  | noOpcode
  /-- The operands of this opcode byte do not all follow it. -/
  | truncated (op : Byte)
  deriving DecidableEq, Repr

/-- The operands of an assigned opcode, read from the bytes after it, and the bytes left over (R81, R82, R88). -/
def decodeOperands (o : Opcode) (bytes : List Byte) : Except DecodeError (Instr × List Byte) :=
  match o, bytes with
  | .movLitReg, lh :: ll :: r :: rest => .ok (.movLitReg (joinBytes lh ll) (resolveReg r), rest)
  | .movRegReg, rs :: rd :: rest => .ok (.movRegReg (resolveReg rs) (resolveReg rd), rest)
  | .movRegMem, rs :: ah :: al :: rest => .ok (.movRegMem (resolveReg rs) (joinBytes ah al), rest)
  | .movMemReg, ah :: al :: rd :: rest => .ok (.movMemReg (joinBytes ah al) (resolveReg rd), rest)
  | .addRegReg, a :: b :: rest => .ok (.addRegReg (resolveReg a) (resolveReg b), rest)
  | .jmpNotEq, lh :: ll :: t :: rest => .ok (.jmpNotEq (joinBytes lh ll) t, rest)
  | .pshLit, lh :: ll :: rest => .ok (.pshLit (joinBytes lh ll), rest)
  | .pshReg, r :: rest => .ok (.pshReg (resolveReg r), rest)
  | .popReg, r :: rest => .ok (.popReg (resolveReg r), rest)
  | .calLit, ah :: al :: rest => .ok (.calLit (joinBytes ah al), rest)
  | .calReg, r :: rest => .ok (.calReg (resolveReg r), rest)
  | .ret, rest => .ok (.ret, rest)
  | o, _ => .error (.truncated o.byte)

/-- The instruction that a list of bytes begins with, and the bytes after it (R80, R88, R89). -/
def decode : List Byte → Except DecodeError (Instr × List Byte)
  | [] => .error .noOpcode
  | op :: rest =>
    match Opcode.ofByte op with
    | some o => decodeOperands o rest
    | none => .ok (.unassigned op, rest)

/-! ## The encoder -/

/-- The bytes of an instruction in address order, registers by their canonical byte (R82, R93, R94). -/
def encode : Instr → List Byte
  | .movLitReg lit d => [Opcode.movLitReg.byte, hiByte lit, loByte lit, d.byte]
  | .movRegReg src dst => [Opcode.movRegReg.byte, src.byte, dst.byte]
  | .movRegMem src addr => [Opcode.movRegMem.byte, src.byte, hiByte addr, loByte addr]
  | .movMemReg addr dst => [Opcode.movMemReg.byte, hiByte addr, loByte addr, dst.byte]
  | .addRegReg src1 src2 => [Opcode.addRegReg.byte, src1.byte, src2.byte]
  | .jmpNotEq lit target => [Opcode.jmpNotEq.byte, hiByte lit, loByte lit, target]
  | .pshLit lit => [Opcode.pshLit.byte, hiByte lit, loByte lit]
  | .pshReg src => [Opcode.pshReg.byte, src.byte]
  | .popReg dst => [Opcode.popReg.byte, dst.byte]
  | .calLit target => [Opcode.calLit.byte, hiByte target, loByte target]
  | .calReg src => [Opcode.calReg.byte, src.byte]
  | .ret => [Opcode.ret.byte]
  | .unassigned op => [op]

/-- The assigned opcode of an instruction; `none` for `unassigned` (R88, R89). -/
def Instr.opcode : Instr → Option Opcode
  | .movLitReg _ _ => some .movLitReg
  | .movRegReg _ _ => some .movRegReg
  | .movRegMem _ _ => some .movRegMem
  | .movMemReg _ _ => some .movMemReg
  | .addRegReg _ _ => some .addRegReg
  | .jmpNotEq _ _ => some .jmpNotEq
  | .pshLit _ => some .pshLit
  | .pshReg _ => some .pshReg
  | .popReg _ => some .popReg
  | .calLit _ => some .calLit
  | .calReg _ => some .calReg
  | .ret => some .ret
  | .unassigned _ => none

/-- An instruction's length in bytes (R82, R90). -/
def Instr.length (i : Instr) : Nat :=
  match i.opcode with
  | some o => 1 + (o.operands.map OperandKind.size).sum
  | none => 1

/-! ## The host's numbering of a table word -/

/-- The four bytes of the word `w` of `nbits` bits as they lie in Memory: byte `k` is bits `8k+7 .. 8k`, and every
bit above `nbits` is 0. Four bytes are the longest instruction (R82). -/
def tableBytes (nbits w : Nat) : List Byte :=
  let v := w % 2 ^ nbits
  [BitVec.ofNat 8 v, BitVec.ofNat 8 (v / 2 ^ 8), BitVec.ofNat 8 (v / 2 ^ 16), BitVec.ofNat 8 (v / 2 ^ 24)]

/-- The instruction the decoder reads from an opcode-table word. -/
def decodeTableWord (nbits w : Nat) : Option Instr :=
  match decode (tableBytes nbits w) with
  | .ok (i, _) => some i
  | .error _ => none

end Sys2Proof
end

