-- ==== Sys2Proof/Config.lean ====
section
/-! DEFINITION. What an implementation or a host fixes for one machine: the parameters of R7.
`MEM_SIZE` is the capacity of the Memory and is held with the Memory itself (Machine/State.lean). -/

namespace Sys2Proof

/-- `UNKNOWN_OPCODE_POLICY` of R7: what an opcode byte outside the 12 does (R89, R213). -/
inductive UnknownOpcodePolicy where
  /-- The value the spec takes: a one-byte no-op (R89). -/
  | nop
  /-- The alternative the spec names: raise `UnknownOpcode` (R213). -/
  | fault
  deriving DecidableEq, Repr

/-- The two legal values of `CNT_STEP` (R7): how much a push adds to the frame counter (R160) and a pop takes (R161). -/
inductive CntStep where
  | one
  | two
  deriving DecidableEq, Repr

/-- The parameters of R7 that are not the Memory's size; no step changes them. -/
structure Config where
  /-- `CNT_STEP` (R160, R161). -/
  cntStep : CntStep
  /-- `UNKNOWN_OPCODE_POLICY` (R89). -/
  policy : UnknownOpcodePolicy
  deriving DecidableEq, Repr

namespace Config

/-- The values the spec takes: `CNT_STEP = 2`, `UNKNOWN_OPCODE_POLICY = nop` (R7). -/
def standard : Config := { cntStep := .two, policy := .nop }

/-- The smallest legal `MEM_SIZE` (R7, R245). -/
def minMemSize : Nat := 2

/-- The largest legal `MEM_SIZE` (R7, R245). -/
def maxMemSize : Nat := 65536

/-- DESIGN CHOICE (notes/assumptions/1.md), unsafe: the capacity of the Memory that `State.reset` stands over.
The spec leaves `MEM_SIZE` open (R7, D1); every state with another legal size is a state of the model too. -/
def resetMemSize : Nat := 65536

end Config

end Sys2Proof
end

