-- ==== Sys2Proof/Machine/State.lean ====
section
/-! DEFINITION. Everything the spec gives the machine: the register file (R20), the hidden frame counter (R31), the engine
status and its fault record (R32), the Memory (R50), the parameters (R7); the ways a step stops; the state after reset (R35, R241). -/

namespace Sys2Proof.Machine

/-- The register file: exactly 12 registers of 16 bits (R20, R21). The byte layout of the 24-byte buffer inside a
slot is not observable and not modelled (R33). -/
structure RegFile where
  /-- Instruction pointer, index 0 (R24). -/
  ip : Word
  /-- Accumulator, index 1 (R25). -/
  acc : Word
  /-- General registers, indices 2 to 9 (R26). -/
  r1 : Word
  r2 : Word
  r3 : Word
  r4 : Word
  r5 : Word
  r6 : Word
  r7 : Word
  r8 : Word
  /-- Stack pointer, index 10: the next free stack slot (R27). -/
  sp : Word
  /-- Frame pointer, index 11: the boundary of the current call frame (R28). -/
  fp : Word
  deriving DecidableEq, Repr

/-- The Memory (R50): a capacity fixed at creation and the bytes that are not 0x00, as (address, byte) pairs.
Its one canonical form is `Memory.wf` (Machine/Ops.lean). -/
structure Memory where
  /-- `MEM_SIZE`, the capacity in bytes (R7, R50). -/
  size : Nat
  /-- The bytes that differ from 0x00, addresses rising; every other byte below `size` is 0x00 (R51). -/
  cells : List Host.Cell
  deriving DecidableEq, Repr

/-- How many bytes a Memory access covers: 1 or 2 (R52 to R55). -/
inductive AccessSize where
  | byte
  | word
  deriving DecidableEq, Repr

/-- Whether an access reads or writes (R211). -/
inductive AccessKind where
  | read
  | write
  deriving DecidableEq, Repr

/-- The fault record (R211, R213). -/
inductive FaultRecord where
  /-- Code 1 (R210): the access `addr`, `size`, `kind` left the Memory; `fetch` says whether it was an instruction
  fetch; `ip0` is the address of the faulting instruction's opcode byte (R211). -/
  | outOfBounds (addr : Word) (size : AccessSize) (kind : AccessKind) (fetch : Bool) (ip0 : Word)
  /-- Code 2 (R210): the opcode byte `op` at `ip0` is unassigned and the policy is `fault` (R213). -/
  | unknownOpcode (op : Byte) (ip0 : Word)
  deriving DecidableEq, Repr

/-- The engine status (R32). The fault record is empty exactly while the engine is RUNNING, so it is FAULTED's argument. -/
inductive Status where
  | running
  | faulted (record : FaultRecord)
  deriving DecidableEq, Repr

/-- The whole machine. -/
structure State where
  /-- The parameters the model takes as arguments (R7); no step changes them. -/
  config : Config
  /-- The 12 registers (R20). -/
  regs : RegFile
  /-- `sfc`, the hidden 16-bit frame counter `stackFrameWordCount` (R31). -/
  sfc : Word
  /-- RUNNING, or FAULTED with its record (R32). -/
  status : Status
  /-- The Memory, which holds code, data and the stack (R50, R61). -/
  mem : Memory
  deriving DecidableEq, Repr

/-- How a step ends in a fault (R210, R214). Each constructor carries the state the fault leaves, because R214 keeps
every effect that came before the faulting access and sets FAULTED; `Host.Outcome.fault` holds nothing else. -/
inductive Fault where
  /-- Raised by any Memory access with `addr + n > MEM_SIZE` (R56, R211): a fetch, a load, a store, a push or a pop.
  Safe: it is the fault the spec describes, and the state it leaves is the spec's. -/
  | outOfBounds (addr : Word) (size : AccessSize) (kind : AccessKind) (fetch : Bool) (ip0 : Word) (after : State)
  /-- Raised by an unassigned opcode byte under `UNKNOWN_OPCODE_POLICY = fault` (R213), never under `nop`.
  Safe: it is the fault the spec describes. -/
  | unknownOpcode (op : Byte) (ip0 : Word) (after : State)
  deriving DecidableEq, Repr

/-- Why a step has no meaning. No step of this model is refused: every opcode byte has a meaning (R89, R92). -/
inductive Refusal where
  /-- An instruction that `exec` rejects by name, for want of a meaning. Raised by no arm. Safe. -/
  | notModelled (mnemonic : String)
  /-- The fetched bytes decode to no instruction. Raised by the step cycle only, and never: the cycle fetches the
  operands of its opcode byte before it decodes. Safe. -/
  | undecodable
  deriving DecidableEq, Repr

/-- The machine right after reset (R35, R241) over a newly created, zero-filled Memory (R51) of `Config.resetMemSize`
bytes (DESIGN CHOICE, notes/assumptions/1.md), with the parameter values the spec takes (R7). Every other value is R35's. -/
def State.reset : State where
  config := Config.standard
  regs := {
    ip := 0, acc := 0, r1 := 0, r2 := 0, r3 := 0, r4 := 0, r5 := 0, r6 := 0, r7 := 0, r8 := 0
    sp := BitVec.ofNat 16 (Config.resetMemSize - 2)
    fp := BitVec.ofNat 16 (Config.resetMemSize - 2) }
  sfc := 0
  status := .running
  mem := { size := Config.resetMemSize, cells := [] }

end Sys2Proof.Machine
end

