-- ==== Sys2Proof/Machine/Ops.lean ====
section
/-! DEFINITION. The shared operations: registers (R20 to R22), Memory (R50 to R59), raising a fault (R214), the stack
primitives (R160, R161) and the frame protocol (R181, R182). -/

namespace Sys2Proof.Machine

/-! ## Registers -/

/-- Read one register of the file (R20, R21). -/
def RegFile.get (f : RegFile) : Reg → Word
  | .ip => f.ip | .acc => f.acc | .r1 => f.r1 | .r2 => f.r2 | .r3 => f.r3 | .r4 => f.r4
  | .r5 => f.r5 | .r6 => f.r6 | .r7 => f.r7 | .r8 => f.r8 | .sp => f.sp | .fp => f.fp

/-- Write one register of the file; none is hardwired or read-only (R21, R22). -/
def RegFile.set (f : RegFile) (r : Reg) (v : Word) : RegFile :=
  match r with
  | .ip => { f with ip := v } | .acc => { f with acc := v }
  | .r1 => { f with r1 := v } | .r2 => { f with r2 := v } | .r3 => { f with r3 := v } | .r4 => { f with r4 := v }
  | .r5 => { f with r5 := v } | .r6 => { f with r6 := v } | .r7 => { f with r7 := v } | .r8 => { f with r8 := v }
  | .sp => { f with sp := v } | .fp => { f with fp := v }

/-- `x[r]` (R9). -/
def State.get (s : State) (r : Reg) : Word := s.regs.get r

/-- `x[r] <- v` (R9, R21). -/
def State.set (s : State) (r : Reg) (v : Word) : State := { s with regs := s.regs.set r v }

/-- `sfc <- v` (R31). -/
def State.setSfc (s : State) (v : Word) : State := { s with sfc := v }

/-- The state over another Memory. -/
def State.setMem (s : State) (m : Memory) : State := { s with mem := m }

/-- The state with another engine status (R32). -/
def State.setStatus (s : State) (st : Status) : State := { s with status := st }

/-- ip after `n` fetched bytes: every advance is modulo 2^16 (R24, R83, R84). -/
def State.advance (s : State) (n : Nat) : State := s.set .ip (s.get .ip + BitVec.ofNat 16 n)

/-! ## Memory -/

/-- What a byte that nothing has written reads as: 0x00 (R51). -/
def unwrittenByte : Byte := 0

/-- The byte a cell list gives for an address. -/
def readCells : List Host.Cell → Nat → Byte
  | [], _ => unwrittenByte
  | (k, w) :: rest, a => if k = a then w else readCells rest a

/-- A cell list with one byte written, in canonical form: writing the byte an unlisted address reads as removes the cell. -/
def writeCells : List Host.Cell → Nat → Byte → List Host.Cell
  | [], a, v => if v = unwrittenByte then [] else [(a, v)]
  | (k, w) :: rest, a, v =>
    if a < k then (if v = unwrittenByte then (k, w) :: rest else (a, v) :: (k, w) :: rest)
    else if a = k then (if v = unwrittenByte then rest else (a, v) :: rest)
    else (k, w) :: writeCells rest a v

/-- The one canonical form of a Memory: addresses strictly rising and inside the capacity, no listed 0x00. -/
abbrev Memory.wf (m : Memory) : Prop :=
  m.cells.Pairwise (fun c d => c.1 < d.1) ∧ ∀ c ∈ m.cells, c.1 < m.size ∧ c.2 ≠ unwrittenByte

/-- A newly created Memory: every byte is 0x00 (R50, R51). -/
def Memory.create (size : Nat) : Memory := { size := size, cells := [] }

/-- The byte at an address (R64); meaningful below the capacity. -/
def Memory.byteAt (m : Memory) (a : Nat) : Byte := readCells m.cells a

/-- The Memory with one byte stored (R55); the capacity never changes (R50). -/
def Memory.setByte (m : Memory) (a : Nat) (v : Byte) : Memory := { m with cells := writeCells m.cells a v }

/-- The big-endian word at `a` and `a + 1` (R53, R58). -/
def Memory.wordAt (m : Memory) (a : Nat) : Word := joinBytes (m.byteAt a) (m.byteAt (a + 1))

/-- The Memory with a big-endian word stored at `a` and `a + 1` (R54, R58). -/
def Memory.setWord (m : Memory) (a : Nat) (v : Word) : Memory :=
  (m.setByte a (hiByte v)).setByte (a + 1) (loByte v)

/-- How many bytes an access covers (R52 to R55). -/
def AccessSize.bytes : AccessSize → Nat
  | .byte => 1
  | .word => 2

/-- The bounds check `addr + n <= MEM_SIZE`, computed without wrap-around (R56, R57). -/
def Memory.inBounds (m : Memory) (addr : Word) (n : AccessSize) : Bool := addr.toNat + n.bytes ≤ m.size

/-- The byte of the state's Memory at an address. -/
def State.byteAt (s : State) (a : Nat) : Byte := s.mem.byteAt a

/-- The word of the state's Memory at an address. -/
def State.wordAt (s : State) (a : Word) : Word := s.mem.wordAt a.toNat

/-! ## Faults -/

/-- The fault a record reports, with the state it leaves. -/
def Fault.ofRecord (r : FaultRecord) (after : State) : Fault :=
  match r with
  | .outOfBounds addr size kind fetch ip0 => .outOfBounds addr size kind fetch ip0 after
  | .unknownOpcode op ip0 => .unknownOpcode op ip0 after

/-- The record a fault reports to the host (R211, R213). -/
def Fault.record : Fault → FaultRecord
  | .outOfBounds addr size kind fetch ip0 _ => .outOfBounds addr size kind fetch ip0
  | .unknownOpcode op ip0 _ => .unknownOpcode op ip0

/-- The state a fault leaves (R214). -/
def Fault.after : Fault → State
  | .outOfBounds _ _ _ _ _ s => s
  | .unknownOpcode _ _ s => s

/-- The numeric code of a fault (R210). -/
def FaultRecord.code : FaultRecord → Nat
  | .outOfBounds .. => 1
  | .unknownOpcode .. => 2

/-- FAULT ENTRY, the one shared operation (R214): every effect `s` holds is kept, the status becomes FAULTED, the record
is set and reported; no register is written and control goes nowhere. There is no return from a fault (R215). -/
def State.raise (s : State) (r : FaultRecord) : Fault := Fault.ofRecord r (s.setStatus (.faulted r))

/-! ## Accesses that check their bounds -/

/-- `MemRead(addr, 1)` (R52), with what the record needs: whether it is a fetch, and `ip0`. -/
def readByte (fetch : Bool) (ip0 addr : Word) (s : State) : Except Fault Byte :=
  if s.mem.inBounds addr .byte then .ok (s.mem.byteAt addr.toNat)
  else .error (s.raise (.outOfBounds addr .byte .read fetch ip0))

/-- `MemRead(addr, 2)` (R53). -/
def readWord (fetch : Bool) (ip0 addr : Word) (s : State) : Except Fault Word :=
  if s.mem.inBounds addr .word then .ok (s.mem.wordAt addr.toNat)
  else .error (s.raise (.outOfBounds addr .word .read fetch ip0))

/-- `MemWrite(addr, 2, v)` (R54): a failed write changes no byte. -/
def writeWord (ip0 addr v : Word) (s : State) : Except Fault State :=
  if s.mem.inBounds addr .word then .ok (s.setMem (s.mem.setWord addr.toNat v))
  else .error (s.raise (.outOfBounds addr .word .write false ip0))

/-! ## The stack (R160, R161) -/

/-- The number a value of `CNT_STEP` stands for (R7). -/
def cntAmount : CntStep → Word
  | .one => 1
  | .two => 2

/-- `Push(v)`: the write, then sp, then the counter (R160). -/
def push (ip0 v : Word) (s : State) : Except Fault State := do
  let a := s.get .sp
  let s ← writeWord ip0 a v s
  let s := s.set .sp (a - 2)
  return s.setSfc (s.sfc + cntAmount s.config.cntStep)

/-- `Pop()`: sp, then the read, then the counter (R161); a pop that faults has moved sp. -/
def pop (ip0 : Word) (s : State) : Except Fault (Word × State) := do
  let a := s.get .sp + 2
  let s := s.set .sp a
  let w ← readWord false ip0 a s
  return (w, s.setSfc (s.sfc - cntAmount s.config.cntStep))

/-! ## The frame protocol (R181, R182) -/

/-- The registers the protocol saves, in the order the prologue pushes them (R181 step 1). -/
def savedRegs : List Reg := [.r1, .r2, .r3, .r4, .r5, .r6, .r7, .r8]

/-- Push each register of a list in turn. -/
def pushRegs (ip0 : Word) : List Reg → State → Except Fault State
  | [], s => .ok s
  | r :: rs, s => do
    let s ← push ip0 (s.get r) s
    pushRegs ip0 rs s

/-- Pop into each register of a list in turn. -/
def popRegs (ip0 : Word) : List Reg → State → Except Fault State
  | [], s => .ok s
  | r :: rs, s => do
    let (w, s) ← pop ip0 s
    popRegs ip0 rs (s.set r w)

/-- Pop `n` words and ignore them (R182 step 6). -/
def discard (ip0 : Word) : Nat → State → Except Fault State
  | 0, s => .ok s
  | n + 1, s => do
    let (_, s) ← pop ip0 s
    discard ip0 n s

/-- `PushState()`, the call prologue (R181); ip already holds the return address. -/
def pushState (ip0 : Word) (s : State) : Except Fault State := do
  let s ← pushRegs ip0 savedRegs s
  let s ← push ip0 (s.get .ip) s
  let s ← push ip0 (s.sfc + 2) s
  return (s.set .fp (s.get .sp)).setSfc 0

/-- `PopState()`, the call epilogue (R182). -/
def popState (ip0 : Word) (s : State) : Except Fault State := do
  let f := s.get .fp
  let s := s.set .sp f
  let (marker, s) ← pop ip0 s
  let s := s.setSfc marker
  let (ret, s) ← pop ip0 s
  let s := s.set .ip ret
  let s ← popRegs ip0 savedRegs.reverse s
  let (n, s) ← pop ip0 s
  let s ← discard ip0 n.toNat s
  return s.set .fp (f + marker)

/-! ## How an operation ends a step -/

/-- The outcome of an operation: its state, or the fault it raised (R214). -/
def settle : Except Fault State → Host.Outcome State Fault Refusal
  | .ok s => .next s
  | .error f => .fault f

/-! ## Placing bytes -/

/-- The Memory with bytes stored from `a` on, each address modulo 2^16; a byte outside the capacity is not stored. -/
def Memory.placeBytes (m : Memory) (a : Word) : List Byte → Memory
  | [] => m
  | b :: bs => (if a.toNat < m.size then m.setByte a.toNat b else m).placeBytes (a + 1) bs

end Sys2Proof.Machine
end

