-- ==== Sys2Proof/Machine/Operands.lean ====
section
/-! DEFINITION. The operand forms (R81): what each kind of operand denotes once it has been fetched and decoded.
A 16-bit literal and a 16-bit address denote themselves. -/

namespace Sys2Proof.Machine

/-- A source register operand: read after every operand fetch (R86), so ip reads as the next instruction's address. -/
def State.source (s : State) (r : Reg) : Word := s.get r

/-- A destination register operand: written after every fetch and read (R86); a write to ip transfers control (R22, R124). -/
def State.dest (s : State) (r : Reg) (v : Word) : State := s.set r v

/-- An 8-bit address operand as a target, 0x0000..0x00FF (R81, R151). -/
def shortTarget (t : Byte) : Word := zeroExtend16 t

end Sys2Proof.Machine
end

