-- ==== Sys2Proof/Machine/Flags.lean ====
section
/-! DEFINITION. The machine has no flags, condition codes or predicates (R29): nothing is recorded by any instruction.
What stands here is the one comparison (R150) and the one sum (R140), neither of which leaves a flag. -/

namespace Sys2Proof.Machine

/-- Whether JMP_NOT_EQ jumps: a 16-bit comparison for equality, not recorded (R150). -/
def jumpTaken (lit acc : Word) : Bool := lit != acc

/-- The unsigned sum modulo 2^16; no carry and no overflow is recorded (R140, R141, R217). -/
def sum16 (v1 v2 : Word) : Word := v1 + v2

end Sys2Proof.Machine
end

