-- ==== Sys2Proof/Machine/Arithmetic.lean ====
section
/-! DEFINITION. The arithmetic family (R140, R141). -/

namespace Sys2Proof.Machine

/-- ADD_REG_REG (R140): acc gets the sum modulo 2^16; nothing else but ip's advance. -/
def execAddRegReg (src1 src2 : Reg) (s : State) : Host.Outcome State Fault Refusal :=
  let s := s.advance 3
  let v1 := s.source src1
  let v2 := s.source src2
  .next (s.dest .acc (sum16 v1 v2))

end Sys2Proof.Machine
end

