-- ==== Sys2Proof/Machine/Branch.lean ====
section
/-! DEFINITION. The branch family (R150, R151). -/

namespace Sys2Proof.Machine

/-- JMP_NOT_EQ (R150): jump to an 8-bit address if the literal differs from acc. -/
def execJmpNotEq (lit : Word) (target : Byte) (s : State) : Host.Outcome State Fault Refusal :=
  let s := s.advance 4
  .next (if jumpTaken lit (s.get .acc) then s.set .ip (shortTarget target) else s)

end Sys2Proof.Machine
end

