-- ==== Sys2Proof/Machine/Call.lean ====
section
/-! DEFINITION. Calls and return (R180 to R190). -/

namespace Sys2Proof.Machine

/-- CAL_LIT (R185). -/
def execCalLit (target : Word) (s : State) : Host.Outcome State Fault Refusal :=
  let ip0 := s.get .ip
  let s := s.advance 3
  settle do
    let s ← pushState ip0 s
    return s.set .ip target

/-- CAL_REG (R186): the register is read before PushState. -/
def execCalReg (src : Reg) (s : State) : Host.Outcome State Fault Refusal :=
  let ip0 := s.get .ip
  let s := s.advance 2
  let t := s.source src
  settle do
    let s ← pushState ip0 s
    return s.set .ip t

/-- RET (R187): PopState and nothing else. -/
def execRet (s : State) : Host.Outcome State Fault Refusal :=
  let ip0 := s.get .ip
  let s := s.advance 1
  settle (popState ip0 s)

end Sys2Proof.Machine
end

