-- ==== Sys2Proof/Machine/Move.lean ====
section
/-! DEFINITION. The move family (R120 to R124). Each meaning starts in the state whose ip is at the opcode byte; the fetches,
which come first (R86), have succeeded, and `advance` is what they left of ip. -/

namespace Sys2Proof.Machine

/-- MOV_LIT_REG (R120). -/
def execMovLitReg (lit : Word) (dst : Reg) (s : State) : Host.Outcome State Fault Refusal :=
  let s := s.advance 4
  .next (s.dest dst lit)

/-- MOV_REG_REG (R121): the first operand is the source. -/
def execMovRegReg (src dst : Reg) (s : State) : Host.Outcome State Fault Refusal :=
  let s := s.advance 3
  let v := s.source src
  .next (s.dest dst v)

/-- MOV_REG_MEM (R122): stores a big-endian word. -/
def execMovRegMem (src : Reg) (addr : Word) (s : State) : Host.Outcome State Fault Refusal :=
  let ip0 := s.get .ip
  let s := s.advance 4
  let v := s.source src
  settle (writeWord ip0 addr v s)

/-- MOV_MEM_REG (R123): loads a big-endian word. -/
def execMovMemReg (addr : Word) (dst : Reg) (s : State) : Host.Outcome State Fault Refusal :=
  let ip0 := s.get .ip
  let s := s.advance 4
  settle do
    let v ← readWord false ip0 addr s
    return s.dest dst v

end Sys2Proof.Machine
end

