-- ==== Sys2Proof/Machine/Stack.lean ====
section
/-! DEFINITION. The stack family (R162 to R165). -/

namespace Sys2Proof.Machine

/-- PSH_LIT (R162). -/
def execPshLit (lit : Word) (s : State) : Host.Outcome State Fault Refusal :=
  let ip0 := s.get .ip
  let s := s.advance 3
  settle (push ip0 lit s)

/-- PSH_REG (R163): the register is read before the push. -/
def execPshReg (src : Reg) (s : State) : Host.Outcome State Fault Refusal :=
  let ip0 := s.get .ip
  let s := s.advance 2
  let v := s.source src
  settle (push ip0 v s)

/-- POP_REG (R164): the popped word is written after sp has moved. -/
def execPopReg (dst : Reg) (s : State) : Host.Outcome State Fault Refusal :=
  let ip0 := s.get .ip
  let s := s.advance 2
  settle do
    let (v, s) ← pop ip0 s
    return s.dest dst v

end Sys2Proof.Machine
end

