-- ==== Sys2Proof/Machine/Unassigned.lean ====
section
/-! DEFINITION. The 244 unassigned opcode bytes (R89, R213). -/

namespace Sys2Proof.Machine

/-- An unassigned opcode byte: a one-byte no-op, or the fault UnknownOpcode, as the policy says (R89, R213). -/
def execUnassigned (op : Byte) (s : State) : Host.Outcome State Fault Refusal :=
  let ip0 := s.get .ip
  let s := s.advance 1
  match s.config.policy with
  | .nop => .next s
  | .fault => .fault (s.raise (.unknownOpcode op ip0))

end Sys2Proof.Machine
end

