-- ==== Sys2Proof/Machine/Dispatch.lean ====
section
/-! DEFINITION. From an instruction to its meaning, one arm each (R87, R88). -/

namespace Sys2Proof.Machine

def exec (i : Instr) (s : State) : Host.Outcome State Fault Refusal :=
  match i with
  | .movLitReg lit dst => Sys2Proof.Machine.execMovLitReg lit dst s
  | .movRegReg src dst => Sys2Proof.Machine.execMovRegReg src dst s
  | .movRegMem src addr => Sys2Proof.Machine.execMovRegMem src addr s
  | .movMemReg addr dst => Sys2Proof.Machine.execMovMemReg addr dst s
  | .addRegReg src1 src2 => Sys2Proof.Machine.execAddRegReg src1 src2 s
  | .jmpNotEq lit target => Sys2Proof.Machine.execJmpNotEq lit target s
  | .pshLit lit => Sys2Proof.Machine.execPshLit lit s
  | .pshReg src => Sys2Proof.Machine.execPshReg src s
  | .popReg dst => Sys2Proof.Machine.execPopReg dst s
  | .calLit target => Sys2Proof.Machine.execCalLit target s
  | .calReg src => Sys2Proof.Machine.execCalReg src s
  | .ret => Sys2Proof.Machine.execRet s
  | .unassigned op => Sys2Proof.Machine.execUnassigned op s

end Sys2Proof.Machine
end

