-- ==== Sys2Proof/Machine/Fetch.lean ====
section
/-! DEFINITION. Instruction fetch (R80, R83 to R86, R96): the opcode byte, then each operand in fetch order, a byte or a word
at a time, each fetch advancing ip. -/

namespace Sys2Proof.Machine

/-- `FetchByte()` (R83): the read comes before the advance. -/
def fetchByte (ip0 : Word) (s : State) : Except Fault (Byte × State) := do
  let b ← readByte true ip0 (s.get .ip) s
  return (b, s.advance 1)

/-- `FetchWord()` (R84): one 2-byte access, which never wraps (R57). -/
def fetchWord (ip0 : Word) (s : State) : Except Fault (Word × State) := do
  let w ← readWord true ip0 (s.get .ip) s
  return (w, s.advance 2)

/-- Fetch one operand; its bytes in address order (R81, R83, R84). -/
def fetchOperand (ip0 : Word) (k : OperandKind) (s : State) : Except Fault (List Byte × State) :=
  match k with
  | .register | .address8 => do
    let (b, s) ← fetchByte ip0 s
    return ([b], s)
  | .literal16 | .address16 => do
    let (w, s) ← fetchWord ip0 s
    return ([hiByte w, loByte w], s)

/-- Fetch operands in order (R86). -/
def fetchOperands (ip0 : Word) : List OperandKind → State → Except Fault (List Byte × State)
  | [], s => .ok ([], s)
  | k :: ks, s => do
    let (bs, s) ← fetchOperand ip0 k s
    let (rest, s) ← fetchOperands ip0 ks s
    return (bs ++ rest, s)

/-- Fetch the whole instruction at ip: its bytes, and the state whose ip is past them (R80, R86, R90). -/
def fetchInstr (s : State) : Except Fault (List Byte × State) := do
  let ip0 := s.get .ip
  let (op, s) ← fetchByte ip0 s
  let (rest, s) ← fetchOperands ip0 (operandsOf op) s
  return (op :: rest, s)

end Sys2Proof.Machine
end

