-- ==== Sys2Proof/Machine/Cycle.lean ====
section
/-! DEFINITION. The step cycle (R87, R97). -/

namespace Sys2Proof.Machine

/-- `Step()` (R87). A FAULTED engine changes nothing and reports its record again (R97). A RUNNING one fetches the instruction
at ip, every fetch before anything else (R86), decodes it and runs its meaning from the state whose ip is at the opcode. -/
def cycle (s : State) : Host.Outcome State Fault Refusal :=
  match s.status with
  | .faulted r => .fault (Fault.ofRecord r s)
  | .running =>
    match fetchInstr s with
    | .error f => .fault f
    | .ok (bytes, _) =>
      match decode bytes with
      | .ok (i, _) => exec i s
      | .error _ => .refused .undecodable

end Sys2Proof.Machine
end

