-- ==== Sys2Proof/Machine/HostPort.lean ====
section
/-! DEFINITION. The host's interactions with the CORE and the Memory, each between two steps (R34, R212, R223, R242, R244, R245).
`step` is Machine/Step.lean's; stopping is calling `step` no more. -/

namespace Sys2Proof.Machine

/-- Why a request of the host is refused. None of them changes a state or sets FAULTED (R212, R223). -/
inductive HostError where
  /-- `get` or `set` with a name outside the 12 (R34, R212). -/
  | unknownRegister (name : String)
  /-- A Memory access of the host that leaves the capacity (R56, R223). -/
  | outOfBounds (addr : Int) (size : AccessSize) (kind : AccessKind)
  /-- An engine constructed over a Memory whose size is outside 2..65536 (R245). -/
  | illegalMemSize (size : Nat)
  deriving DecidableEq, Repr

/-- The numeric code of an error the source names (R210); the refusal of a Memory size is not one of them. -/
def HostError.code : HostError → Option Nat
  | .unknownRegister _ => some 3
  | .outOfBounds .. => some 1
  | .illegalMemSize _ => none

/-- A register's name (R20). -/
def regName : Reg → String
  | .ip => "ip" | .acc => "acc" | .r1 => "r1" | .r2 => "r2" | .r3 => "r3" | .r4 => "r4"
  | .r5 => "r5" | .r6 => "r6" | .r7 => "r7" | .r8 => "r8" | .sp => "sp" | .fp => "fp"

/-- The 12 registers in index order (R20). -/
def allRegs : List Reg := [.ip, .acc, .r1, .r2, .r3, .r4, .r5, .r6, .r7, .r8, .sp, .fp]

/-- The register a name names, if any (R20, R212). -/
def regOfName (name : String) : Option Reg := allRegs.find? fun r => regName r = name

/-- The engine's state right after construction over a loaded Memory (R35, R241): the Memory stays as handed over (R242). -/
def State.constructed (c : Config) (m : Memory) : State where
  config := c
  regs := {
    ip := 0, acc := 0, r1 := 0, r2 := 0, r3 := 0, r4 := 0, r5 := 0, r6 := 0, r7 := 0, r8 := 0
    sp := BitVec.ofNat 16 (m.size - 2), fp := BitVec.ofNat 16 (m.size - 2) }
  sfc := 0
  status := .running
  mem := m

/-- Construct (reset) an engine over a Memory (R223, R241). A `MEM_SIZE` outside 2..65536 is refused (R245). -/
def construct (c : Config) (m : Memory) : Except HostError State :=
  if Config.minMemSize ≤ m.size ∧ m.size ≤ Config.maxMemSize then .ok (State.constructed c m)
  else .error (.illegalMemSize m.size)

/-- `get(name)` (R34). -/
def hostGet (name : String) (s : State) : Except HostError Word :=
  match regOfName name with
  | some r => .ok (s.get r)
  | none => .error (.unknownRegister name)

/-- `set(name, value)`: stores `value mod 2^16` (R34). -/
def hostSet (name : String) (value : Int) (s : State) : Except HostError State :=
  match regOfName name with
  | some r => .ok (s.set r (BitVec.ofInt 16 value))
  | none => .error (.unknownRegister name)

/-- The Memory's check of an access of the host, whose address may be any integer (R56). -/
def Memory.hostInBounds (m : Memory) (addr : Int) (n : AccessSize) : Bool := 0 ≤ addr && addr + n.bytes ≤ m.size

/-- `readByte(addr)` by the host (R52, R223). -/
def hostReadByte (addr : Int) (m : Memory) : Except HostError Byte :=
  if m.hostInBounds addr .byte then .ok (m.byteAt addr.toNat) else .error (.outOfBounds addr .byte .read)

/-- `readWord(addr)` by the host (R53, R223). -/
def hostReadWord (addr : Int) (m : Memory) : Except HostError Word :=
  if m.hostInBounds addr .word then .ok (m.wordAt addr.toNat) else .error (.outOfBounds addr .word .read)

/-- `writeByte(addr, v)` by the host: `v` is truncated to 8 bits (R55). -/
def hostWriteByte (addr v : Int) (m : Memory) : Except HostError Memory :=
  if m.hostInBounds addr .byte then .ok (m.setByte addr.toNat (BitVec.ofInt 8 v))
  else .error (.outOfBounds addr .byte .write)

/-- `writeWord(addr, v)` by the host: `v` is truncated to 16 bits (R54). -/
def hostWriteWord (addr v : Int) (m : Memory) : Except HostError Memory :=
  if m.hostInBounds addr .word then .ok (m.setWord addr.toNat (BitVec.ofInt 16 v))
  else .error (.outOfBounds addr .word .write)

/-- The loader: the image's bytes written one after another from an address on (R244). -/
def hostLoad (addr : Int) : List Byte → Memory → Except HostError Memory
  | [], m => .ok m
  | b :: bs, m => do
    let m ← hostWriteByte addr b.toNat m
    hostLoad (addr + 1) bs m

end Sys2Proof.Machine
end

