-- ==== Sys2Proof/Machine/Run.lean ====
section
/-! DEFINITION. Runs and how they end (R250, R251): the host asks for steps, and every step, a fault too, leaves a state. -/

namespace Sys2Proof.Machine

/-- The state the engine is in after one step the host asks for: a completed step's state, the state a fault leaves (R214),
the same state where the engine is FAULTED (R97). No step is refused. -/
def State.afterStep (s : State) : State :=
  match step s with
  | .next t => t
  | .fault f => f.after
  | .refused _ => s

/-- The state after the host has asked for `n` steps, a fault among them or not (R250). -/
def runN : Nat → State → State
  | 0, s => s
  | n + 1, s => runN n s.afterStep

/-- The run of `n` steps over a loaded Memory: its states from the reset on, one per step (R250); refused where the
construction is (R245). -/
def hostRun (c : Config) (m : Memory) (n : Nat) : Except HostError (List State) := do
  let s ← construct c m
  return (List.range (n + 1)).map (runN · s)

/-- The two ways a run ends (R250). -/
inductive RunEnd where
  /-- The engine is FAULTED and takes no step. -/
  | faulted (record : FaultRecord)
  /-- The engine is RUNNING and the host has stopped calling step. -/
  | hostStopped
  deriving DecidableEq, Repr

/-- How a run whose last state is this one has ended (R250). -/
def State.runEnd (s : State) : RunEnd :=
  match s.status with
  | .faulted r => .faulted r
  | .running => .hostStopped

/-- The bytes at `a`, `a + 1`, … (each address modulo 2^16) are inside the Memory and are these (R80). -/
def BytesAt (a : Word) (bytes : List Byte) (s : State) : Prop :=
  ∀ k (h : k < bytes.length),
    (a + BitVec.ofNat 16 k).toNat < s.mem.size ∧ s.byteAt (a + BitVec.ofNat 16 k).toNat = bytes[k]

/-- The bytes at `a` are a stop loop (R251): `MOV_LIT_REG a, ip`, ip by any byte that selects it (R93), or `JMP_NOT_EQ k, a`
with `k` different from acc. Its literal is one access that does not wrap (R84), or the loop could not be fetched. -/
def StopLoopAt (a : Word) (s : State) : Prop :=
  (a + 1).toNat + 2 ≤ s.mem.size ∧
  ((∃ r, resolveReg r = .ip ∧ BytesAt a [0x10, hiByte a, loByte a, r] s) ∨
   ∃ k t, zeroExtend16 t = a ∧ k ≠ s.get .acc ∧ BytesAt a [0x15, hiByte k, loByte k, t] s)

/-- The run from `s` ends, after `n` steps and in the state `t`, at the stop address (R250): `t` is RUNNING, it is the first
state of the run whose ip equals the address, and the bytes there are a stop loop. -/
def StopsAt (stop : Word) (n : Nat) (s t : State) : Prop :=
  runN n s = t ∧ t.status = .running ∧ t.get .ip = stop ∧ StopLoopAt stop t ∧ ∀ k < n, (runN k s).get .ip ≠ stop

end Sys2Proof.Machine
end

