-- ==== Sys2Proof/WellFormed.lean ====
section
/-! DEFINITION. Which terms of `Instr` are instructions: an `unassigned` byte is one of the 244 (R88, R89).
Every operand of the 12 assigned opcodes is legal at every value (R92). -/

namespace Sys2Proof

/-- `unassigned op` is an instruction only where `op` is none of the 12 opcode bytes (R89); every other term is one (R92). -/
def Instr.wellFormed : Instr → Bool
  | .unassigned op => (Opcode.ofByte op).isNone
  | .movLitReg _ _ => true
  | .movRegReg _ _ => true
  | .movRegMem _ _ => true
  | .movMemReg _ _ => true
  | .addRegReg _ _ => true
  | .jmpNotEq _ _ => true
  | .pshLit _ => true
  | .pshReg _ => true
  | .popReg _ => true
  | .calLit _ => true
  | .calReg _ => true
  | .ret => true

end Sys2Proof
end

