-- ==== Sys2Proof/Safety.lean ====
section
/-! DEFINITION. The terms claims use: the states an engine can be in, what two states agree on, what instructions write, completed steps
(R245). -/

namespace Sys2Proof.Machine

/-- What every state of a legally constructed engine satisfies: `MEM_SIZE` is legal (R7, R245) and the Memory is in its
canonical form (R51, R64). -/
abbrev State.Inv (s : State) : Prop :=
  Config.minMemSize ≤ s.mem.size ∧ s.mem.size ≤ Config.maxMemSize ∧ s.mem.wf

/-- Every register outside a list is unchanged. -/
def RegsKept (except : List Reg) (s t : State) : Prop := ∀ r, r ∉ except → t.get r = s.get r

/-- Every byte of Memory, and its capacity, is unchanged. -/
def MemoryKept (s t : State) : Prop := t.mem.size = s.mem.size ∧ ∀ a, t.byteAt a = s.byteAt a

/-- Every byte of Memory outside the two bytes at `addr` and `addr + 1`, and the capacity, is unchanged. -/
def MemoryKeptOutside (addr : Word) (s t : State) : Prop :=
  t.mem.size = s.mem.size ∧ ∀ a, a ≠ addr.toNat → a ≠ addr.toNat + 1 → t.byteAt a = s.byteAt a

/-- The parameters and the engine status are unchanged. -/
def ControlKept (s t : State) : Prop := t.config = s.config ∧ t.status = s.status

/-- The bytes at ip, ip + 1, … (each address modulo 2^16) are inside the Memory and are these (R80). -/
def BytesAtIp (bytes : List Byte) (s : State) : Prop := BytesAt (s.get .ip) bytes s

/-- Every operand access of an instruction passes the bounds check, where the operands start at `a`: a byte operand is one
1-byte access, a word operand one 2-byte access that does not wrap (R83, R84, R96). -/
def OperandsFit (size : Nat) : Word → List OperandKind → Prop
  | _, [] => True
  | a, k :: ks => a.toNat + k.size ≤ size ∧ OperandsFit size (a + BitVec.ofNat 16 k.size) ks

/-- What a source register operand of an instruction of `len` bytes reads as: ip as the next instruction's address (R86). -/
def sourceValue (s : State) (len : Nat) (r : Reg) : Word :=
  if r = .ip then s.get .ip + BitVec.ofNat 16 len else s.get r

/-- The ten words a call instruction of `len` bytes pushes, first to last: r1 to r8, the return address, the frame-size
marker (R181, R183). -/
def callFrame (s : State) (len : Nat) : List Word :=
  [s.get .r1, s.get .r2, s.get .r3, s.get .r4, s.get .r5, s.get .r6, s.get .r7, s.get .r8,
    s.get .ip + BitVec.ofNat 16 len, s.sfc + 9 * cntAmount s.config.cntStep + 2]

/-- The address of the `k`-th word that pushing from the stack pointer `a` stores (R160). -/
def pushAddr (a : Word) (k : Nat) : Word := a - BitVec.ofNat 16 (2 * k)

/-- The address of the `k`-th word that popping from the stack pointer `a` reads (R161). -/
def popAddr (a : Word) (k : Nat) : Word := a + BitVec.ofNat 16 (2 * k + 2)

/-- The first `n` pushes from the stack pointer `a` all lie inside a capacity (R54). -/
def PushesFit (size : Nat) (a : Word) (n : Nat) : Prop := ∀ k < n, (pushAddr a k).toNat + 2 ≤ size

/-- The first `n` pops from the stack pointer `a` all lie inside a capacity (R53). -/
def PopsFit (size : Nat) (a : Word) (n : Nat) : Prop := ∀ k < n, (popAddr a k).toNat + 2 ≤ size

/-- `t` is what a call instruction of `len` bytes to `target` leaves of `s` (R181, R183, R185). -/
def CallResult (s : State) (len : Nat) (target : Word) (t : State) : Prop :=
  t.get .ip = target ∧ t.get .sp = s.get .sp - 20 ∧ t.get .fp = s.get .sp - 20 ∧ t.sfc = 0 ∧
  (∀ k < 10, t.wordAt (pushAddr (s.get .sp) k) = (callFrame s len).getD k 0) ∧
  RegsKept [.ip, .sp, .fp] s t ∧ ControlKept s t ∧ t.mem.size = s.mem.size ∧
  ∀ a, (∀ k < 10, a ≠ (pushAddr (s.get .sp) k).toNat ∧ a ≠ (pushAddr (s.get .sp) k).toNat + 1) → t.byteAt a = s.byteAt a

/-- `t` is what RET leaves of `s` (R182, R187): the words above fp are the marker, the return address, r8 to r1, argCount. -/
def ReturnResult (s t : State) : Prop :=
  let f := s.get .fp
  let marker := s.wordAt (popAddr f 0)
  let n := s.wordAt (popAddr f 10)
  t.get .ip = s.wordAt (popAddr f 1) ∧
  t.get .r8 = s.wordAt (popAddr f 2) ∧ t.get .r7 = s.wordAt (popAddr f 3) ∧ t.get .r6 = s.wordAt (popAddr f 4) ∧
  t.get .r5 = s.wordAt (popAddr f 5) ∧ t.get .r4 = s.wordAt (popAddr f 6) ∧ t.get .r3 = s.wordAt (popAddr f 7) ∧
  t.get .r2 = s.wordAt (popAddr f 8) ∧ t.get .r1 = s.wordAt (popAddr f 9) ∧
  t.get .sp = f + 22 + 2 * n ∧ t.get .fp = f + marker ∧ t.get .acc = s.get .acc ∧
  t.sfc = marker - (10 + n) * cntAmount s.config.cntStep ∧ ControlKept s t ∧ MemoryKept s t

/-- The registers an instruction may write: ip, its destination, and those its rule says it updates (R24, R120 to R187). -/
def writtenRegs : Instr → List Reg
  | .movLitReg _ d => [.ip, d]
  | .movRegReg _ d => [.ip, d]
  | .movRegMem _ _ => [.ip]
  | .movMemReg _ d => [.ip, d]
  | .addRegReg _ _ => [.ip, .acc]
  | .jmpNotEq _ _ => [.ip]
  | .pshLit _ => [.ip, .sp]
  | .pshReg _ => [.ip, .sp]
  | .popReg d => [.ip, .sp, d]
  | .calLit _ => [.ip, .sp, .fp]
  | .calReg _ => [.ip, .sp, .fp]
  | .ret => [.ip, .r1, .r2, .r3, .r4, .r5, .r6, .r7, .r8, .sp, .fp]
  | .unassigned _ => [.ip]

/-- The addresses of the words an instruction stores (R60). -/
def storedWords (i : Instr) (s : State) : List Word :=
  match i with
  | .movRegMem _ a => [a]
  | .pshLit _ => [s.get .sp]
  | .pshReg _ => [s.get .sp]
  | .calLit _ => (List.range 10).map (pushAddr (s.get .sp))
  | .calReg _ => (List.range 10).map (pushAddr (s.get .sp))
  | .movLitReg _ _ => []
  | .movRegReg _ _ => []
  | .movMemReg _ _ => []
  | .addRegReg _ _ => []
  | .jmpNotEq _ _ => []
  | .popReg _ => []
  | .ret => []
  | .unassigned _ => []

/-- The frame counter an instruction leaves (R31, R160, R161, R181, R182). -/
def counterAfter (i : Instr) (s : State) : Word :=
  match i with
  | .pshLit _ => s.sfc + cntAmount s.config.cntStep
  | .pshReg _ => s.sfc + cntAmount s.config.cntStep
  | .popReg _ => s.sfc - cntAmount s.config.cntStep
  | .calLit _ => 0
  | .calReg _ => 0
  | .ret => s.wordAt (popAddr (s.get .fp) 0) - (10 + s.wordAt (popAddr (s.get .fp) 10)) * cntAmount s.config.cntStep
  | .movLitReg _ _ => s.sfc
  | .movRegReg _ _ => s.sfc
  | .movRegMem _ _ => s.sfc
  | .movMemReg _ _ => s.sfc
  | .addRegReg _ _ => s.sfc
  | .jmpNotEq _ _ => s.sfc
  | .unassigned _ => s.sfc

/-- The words RET pops into registers: each register with the place of its pop, the marker's being 0 (R182 steps 3 and 4). -/
def retSlots : List (Reg × Nat) :=
  [(.ip, 1), (.r8, 2), (.r7, 3), (.r6, 4), (.r5, 5), (.r4, 6), (.r3, 7), (.r2, 8), (.r1, 9)]

/-- The counter after `k` successful pops of RET: the marker's pop loads it, each later one takes `CNT_STEP` (R182). -/
def retCounter (s : State) (k : Nat) : Word :=
  if k = 0 then s.sfc
  else s.wordAt (popAddr (s.get .fp) 0) - BitVec.ofNat 16 (k - 1) * cntAmount s.config.cntStep

/-- `n` steps that all complete, and the state after them; none where one of them does not (`runN` goes on through a fault). -/
def stepN : Nat → State → Option State
  | 0, s => some s
  | n + 1, s =>
    match step s with
    | .next t => stepN n t
    | .fault _ => none
    | .refused _ => none

end Sys2Proof.Machine
end

