-- ==== Sys2Proof/Certificates/Slice0/Obligations.lean ====
section
/-! DEFINITION. The statements for the provers. Each docstring says which rule of the spec it formalises. A rule, or a clause
of one, that the spec marks as its own ([derived: …], or [decision: see 92_eei_decisions.md D<n>]) is named as such:
'spec-derived', or by its D<n>; a statement that rests on one has basis 'derived'. What is the model's own choice names its
log entry (notes/assumptions/). Three of them stand in many statements: `f.after`, by which a fault carries the state R214
leaves (notes/assumptions/2.md); `wf`, the canonical form of a Memory, which `Inv` contains (notes/assumptions/9.md); `exec`'s
start with ip at the opcode byte (notes/assumptions/6.md). The fields of a fault record are the spec's D11. -/

open Sys2Proof Sys2Proof.Machine

/-! ## Encoding -/

/-- Decoding an encoded instruction gives it back, whatever bytes follow (R81, R82, R88, R93). -/
def Obligations.DecodeEncodeAgree : Prop :=
  ∀ (i : Instr) (rest : List Byte), i.wellFormed = true → decode (encode i ++ rest) = .ok (i, rest)

/-- R90 (spec-derived): the length is fixed by the opcode byte alone, with the numbers of the rule, and every value of every
operand byte decodes to an instruction of that length. -/
def Obligations.LengthFixedByOpcodeByte : Prop :=
  ∀ (op : Byte) (operands rest : List Byte),
    operands.length + 1 =
      (if op = 0x18 ∨ op = 0x1A ∨ op = 0x5B then 2
       else if op = 0x11 ∨ op = 0x14 ∨ op = 0x17 ∨ op = 0x5A then 3
       else if op = 0x10 ∨ op = 0x12 ∨ op = 0x13 ∨ op = 0x15 then 4
       else 1) →
    ∃ i, decode (op :: operands ++ rest) = .ok (i, rest) ∧ i.length = operands.length + 1 ∧ i.wellFormed = true ∧
      (encode i).head? = some op

/-- A decoded instruction is well formed, and encoding it gives the decoded bytes back up to register aliases: the encoding
decodes to the same instruction and has the same length (R89, R92, R93). The aliases an instruction no longer shows are the
model's choice (notes/assumptions/5.md). -/
def Obligations.DecodedIsWellFormed : Prop :=
  ∀ (bytes : List Byte) (i : Instr) (rest : List Byte), decode bytes = .ok (i, rest) →
    i.wellFormed = true ∧ bytes.length = i.length + rest.length ∧ bytes.drop i.length = rest ∧
    decode (encode i) = .ok (i, [])

/-- The unassigned bytes are exactly those outside the 12 opcode values, and there are 244 of them (R88, R89). -/
def Obligations.UnassignedBytesAreTheOther244 : Prop :=
  (∀ op : Byte, decode [op] = .ok (.unassigned op, []) ↔
    op ∉ ([0x10, 0x11, 0x12, 0x13, 0x14, 0x15, 0x17, 0x18, 0x1A, 0x5A, 0x5B, 0x5C] : List Byte)) ∧
  ((List.range 256).filter fun n => (Opcode.ofByte (BitVec.ofNat 8 n)).isNone).length = 244

/-- R23: a register operand byte selects the register with index `b mod 12`, at byte offset `(b mod 12) * 2`; the rule's
examples. -/
def Obligations.RegisterOperandModulo12 : Prop :=
  (∀ b : Byte, (resolveReg b).index = b.toNat % 12 ∧ (resolveReg b).byteOffset = b.toNat % 12 * 2) ∧
  resolveReg 12 = .ip ∧ resolveReg 13 = .acc ∧ resolveReg 0xFF = .r2

/-- Words written out from the encodings of the spec decode to the instructions they stand for (R94, R120 to R187). -/
def Obligations.WrittenOutWordsDecode : Prop :=
  decode [0x10, 0x12, 0x34, 0x02] = .ok (.movLitReg 0x1234 .r1, []) ∧
  decode [0x12, 0x02, 0x00, 0x80] = .ok (.movRegMem .r1 0x0080, []) ∧
  decode [0x14, 0x02, 0x03] = .ok (.addRegReg .r1 .r2, []) ∧
  decode [0x15, 0x00, 0x03, 0x08] = .ok (.jmpNotEq 0x0003 0x08, []) ∧
  decode [0x1A, 0x03] = .ok (.popReg .r2, []) ∧
  decode [0x5A, 0x00, 0x40] = .ok (.calLit 0x0040, []) ∧
  decode [0x5C] = .ok (.ret, []) ∧
  decode [0xFF] = .ok (.unassigned 0xFF, [])

/-! ## The step -/

/-- A step runs the decoded instruction: where the bytes at ip, none of them past the end of Memory, decode to `i`, the step
of a RUNNING engine is `exec i`, which starts with ip at the opcode byte and moves it past the instruction itself (R80, R86 by
D5, R87; notes/assumptions/6.md). -/
def Obligations.StepRunsDecodedInstruction : Prop :=
  ∀ (s : State) (bytes : List Byte) (i : Instr), s.status = .running → s.mem.size ≤ Config.maxMemSize →
    decode bytes = .ok (i, []) → BytesAtIp bytes s → (s.get .ip).toNat + bytes.length ≤ s.mem.size →
    step s = exec i s

/-- The same where the instruction wraps around the top of the address space byte by byte: it is enough that no fetch of an
operand leaves the capacity, a word operand being one access that does not wrap (R83, R84, R96, spec-derived). -/
def Obligations.StepRunsWrappedInstruction : Prop :=
  ∀ (s : State) (bytes : List Byte) (i : Instr), s.status = .running → s.mem.size ≤ Config.maxMemSize →
    decode bytes = .ok (i, []) → BytesAtIp bytes s →
    OperandsFit s.mem.size (s.get .ip + 1) (operandsOf (bytes.headD 0)) →
    step s = exec i s

/-- An opcode fetch at or beyond the end of Memory faults, and changes nothing but the status (R83 and R214 by D10, R96).
That the outcome carries the state left is the model's form (notes/assumptions/2.md). -/
def Obligations.OpcodeFetchBeyondMemoryFaults : Prop :=
  ∀ s : State, s.status = .running → s.mem.size ≤ (s.get .ip).toNat →
    ∃ f, step s = .fault f ∧ f.record = .outOfBounds (s.get .ip) .byte .read true (s.get .ip) ∧
      f.after = s.setStatus (.faulted f.record)

/-- A word operand that starts at the last byte of Memory faults, even where MEM_SIZE is 65536; the opcode fetch's, and the
register operand's, advance of ip stay (R57, R84, R96, and R214 by D10). -/
def Obligations.WordOperandNeverWraps : Prop :=
  ∀ s : State, s.status = .running → s.Inv →
    (s.byteAt (s.get .ip).toNat ∈ ([0x10, 0x13, 0x15, 0x17, 0x5A] : List Byte) → (s.get .ip).toNat + 2 = s.mem.size →
      ∃ f, step s = .fault f ∧ f.record = .outOfBounds (s.get .ip + 1) .word .read true (s.get .ip) ∧
        f.after = (s.set .ip (s.get .ip + 1)).setStatus (.faulted f.record)) ∧
    (s.byteAt (s.get .ip).toNat = 0x12 → (s.get .ip).toNat + 3 = s.mem.size →
      ∃ f, step s = .fault f ∧ f.record = .outOfBounds (s.get .ip + 2) .word .read true (s.get .ip) ∧
        f.after = (s.set .ip (s.get .ip + 2)).setStatus (.faulted f.record))

/-- A fault in a fetch has no effect but the advances of ip by the fetches that succeeded, and the FAULTED status
(R86 by D5,
R214 by D10). -/
def Obligations.FetchFaultOnlyAdvancesIp : Prop :=
  ∀ (s : State) (f : Fault) (addr ip0 : Word) (n : AccessSize) (kind : AccessKind), s.status = .running →
    step s = .fault f → f.record = .outOfBounds addr n kind true ip0 →
    kind = .read ∧ ip0 = s.get .ip ∧ ∃ k ≤ 3, addr = s.get .ip + BitVec.ofNat 16 k ∧
      f.after = (s.set .ip addr).setStatus (.faulted f.record)

/-- A FAULTED engine takes no step: nothing changes and the recorded fault is reported again (R97 by D10, R215). -/
def Obligations.FaultedEngineTakesNoStep : Prop :=
  ∀ (s : State) (r : FaultRecord), s.status = .faulted r →
    ∃ f, step s = .fault f ∧ f.record = r ∧ f.after = s

/-- Every step ends in completion or in a fault: none is refused (R87, R89, R249, spec-derived). -/
def Obligations.EveryStepCompletesOrFaults : Prop :=
  ∀ s : State, (∃ t, step s = .next t) ∨ ∃ f, step s = .fault f

/-- What a fault of a RUNNING engine says: the status is FAULTED with the reported record; `ip0` is the address of the
instruction's opcode byte; an OutOfBounds access really leaves the capacity; UnknownOpcode comes only under the policy
`fault`, from an unassigned byte, with ip just past it (R211 by D11, R213 by
D7, R214 by D10, R216). -/
def Obligations.FaultRecordIsTrue : Prop :=
  ∀ (s : State) (f : Fault), s.status = .running → step s = .fault f →
    f.after.status = .faulted f.record ∧
    ((∃ addr n kind fetch, f.record = .outOfBounds addr n kind fetch (s.get .ip) ∧ s.mem.size < addr.toNat + n.bytes) ∨
     (∃ op, f.record = .unknownOpcode op (s.get .ip) ∧ s.config.policy = .fault ∧ Opcode.ofByte op = none ∧
       s.byteAt (s.get .ip).toNat = op ∧ f.after = (s.set .ip (s.get .ip + 1)).setStatus (.faulted f.record)))

/-- R89: an unassigned opcode byte under each policy; which policy holds is the spec's D7. -/
def Obligations.UnassignedOpcodeStep : Prop :=
  ∀ (s : State) (op : Byte), s.status = .running → (s.get .ip).toNat < s.mem.size → s.byteAt (s.get .ip).toNat = op →
    op ∉ ([0x10, 0x11, 0x12, 0x13, 0x14, 0x15, 0x17, 0x18, 0x1A, 0x5A, 0x5B, 0x5C] : List Byte) →
    (s.config.policy = .nop → step s = .next (s.set .ip (s.get .ip + 1))) ∧
    (s.config.policy = .fault → ∃ f, step s = .fault f ∧ f.record = .unknownOpcode op (s.get .ip) ∧
      f.after = (s.set .ip (s.get .ip + 1)).setStatus (.faulted f.record))

/-- R251 (spec-derived), wherever the loop's own fetches stay inside the Memory: the two stop loops repeat forever with no
other effect. -/
def Obligations.StopLoopsRepeatForever : Prop :=
  ∀ s : State, s.status = .running → s.mem.size ≤ Config.maxMemSize →
    (BytesAtIp [0x10, hiByte (s.get .ip), loByte (s.get .ip), 0x00] s →
      OperandsFit s.mem.size (s.get .ip + 1) [.literal16, .register] →
      step s = .next s ∧ ∀ n, stepN n s = some s) ∧
    (∀ (k : Word) (a : Byte), s.get .ip = zeroExtend16 a → k ≠ s.get .acc →
      BytesAtIp [0x15, hiByte k, loByte k, a] s → OperandsFit s.mem.size (s.get .ip + 1) [.literal16, .address8] →
      step s = .next s ∧ ∀ n, stepN n s = some s)

/-! ## Invariants -/

/-- Every step that completes keeps the invariant, the parameters, the status and the capacity of the Memory
(R7, R32, R50, R51, R245). -/
def Obligations.StepKeepsInvariant : Prop :=
  ∀ s t : State, s.Inv → step s = .next t → t.Inv ∧ ControlKept s t ∧ t.mem.size = s.mem.size ∧ s.status = .running

/-- The state a fault leaves satisfies the invariant too, with the same parameters and capacity (R50, R214). -/
def Obligations.FaultKeepsInvariant : Prop :=
  ∀ (s : State) (f : Fault), s.Inv → step s = .fault f →
    f.after.Inv ∧ f.after.config = s.config ∧ f.after.mem.size = s.mem.size

/-- The state after reset satisfies the invariant (R35, R51, R245). The capacity it stands over is the model's choice
(notes/assumptions/1.md). -/
def Obligations.ResetSatisfiesInvariant : Prop := State.reset.Inv

/-- Two Memories in canonical form with one capacity and the same bytes are the same data. The canonical form, and this claim
with it, are the model's (notes/assumptions/9.md); the spec gives the bytes alone (R50, R51). -/
def Obligations.EqualBytesEqualMemories : Prop :=
  ∀ m m' : Memory, m.wf → m'.wf → m.size = m'.size → (∀ a, m.byteAt a = m'.byteAt a) → m = m'

/-! ## Construction and the host -/

/-- R35 and R241 (the zeros by D8 and D9), R242, R245 (by D1): construction over a Memory of a legal size sets every register
and the counter and starts RUNNING, and leaves the Memory as handed over; another size is refused. -/
def Obligations.ConstructionResetsTheEngine : Prop :=
  ∀ (c : Config) (m : Memory),
    (2 ≤ m.size → m.size ≤ 65536 → ∃ s, construct c m = .ok s ∧
      (∀ r, r ≠ .sp → r ≠ .fp → s.get r = 0) ∧ (s.get .sp).toNat = m.size - 2 ∧ (s.get .fp).toNat = m.size - 2 ∧
      s.sfc = 0 ∧ s.status = .running ∧ s.mem = m ∧ s.config = c) ∧
    ((m.size < 2 ∨ 65536 < m.size) → construct c m = .error (.illegalMemSize m.size))

/-- `State.reset` is the construction over a new Memory of 65536 bytes; that size is the model's choice
(notes/assumptions/1.md), the rest is R35's and R51's. -/
def Obligations.ResetIsConstructionOverNewMemory : Prop :=
  construct Config.standard (Memory.create 65536) = .ok State.reset

/-- The host reads and writes registers by name, modulo 2^16, and a name outside the 12 is refused (R34, R212 by D19). That a
FAULTED engine answers as a RUNNING one does is the model's choice (notes/assumptions/8.md). -/
def Obligations.HostGetsAndSetsRegisters : Prop :=
  ∀ (s : State) (v : Int),
    (∀ r : Reg, hostGet (regName r) s = .ok (s.get r) ∧
      ∃ t, hostSet (regName r) v s = .ok t ∧ ((t.get r).toNat : Int) = v % 65536 ∧ RegsKept [r] s t ∧ t.sfc = s.sfc ∧
        ControlKept s t ∧ MemoryKept s t) ∧
    (∀ name : String, (∀ r, regName r ≠ name) →
      hostGet name s = .error (.unknownRegister name) ∧ hostSet name v s = .error (.unknownRegister name))

/-- A new Memory is all 0x00, the loader writes the image from address 0, the bytes it does not write stay 0x00, and the
capacity is kept (R50, R51, R244). The canonical form is the model's (notes/assumptions/9.md). -/
def Obligations.LoaderWritesTheImage : Prop :=
  ∀ (size : Nat) (image : List Byte),
    (∀ a, (Memory.create size).byteAt a = 0) ∧
    (image.length ≤ size → ∃ m, hostLoad 0 image (Memory.create size) = .ok m ∧ m.size = size ∧ m.wf ∧
      ∀ a, m.byteAt a = image.getD a 0)

/-- A byte write of the host stores `v mod 2^8` at its address and nothing else; outside the capacity, a negative address
among them, it is refused (R55, R56). The canonical form is the model's (notes/assumptions/9.md). -/
def Obligations.HostWritesOneByte : Prop :=
  ∀ (m : Memory) (addr v : Int), m.wf →
    (0 ≤ addr → addr + 1 ≤ m.size → ∃ m', hostWriteByte addr v m = .ok m' ∧ m'.size = m.size ∧ m'.wf ∧
      ((m'.byteAt addr.toNat).toNat : Int) = v % 256 ∧ ∀ a, a ≠ addr.toNat → m'.byteAt a = m.byteAt a) ∧
    ((addr < 0 ∨ m.size < addr + 1) → hostWriteByte addr v m = .error (.outOfBounds addr .byte .write))

/-! ## Memory accesses -/

/-- A 2-byte read (R53). What its fault leaves is R214 by D10, in the form of notes/assumptions/2.md; the record's fetch flag
and ip0 are R211 by D11. -/
def Obligations.WordReadIsBigEndian : Prop :=
  ∀ (s : State) (fetch : Bool) (ip0 addr : Word),
    (s.mem.size < addr.toNat + 2 → ∃ f, readWord fetch ip0 addr s = .error f ∧
      f.record = .outOfBounds addr .word .read fetch ip0 ∧ f.after = s.setStatus (.faulted f.record)) ∧
    (addr.toNat + 2 ≤ s.mem.size → ∃ w, readWord fetch ip0 addr s = .ok w ∧
      w.toNat = (s.byteAt addr.toNat).toNat * 256 + (s.byteAt (addr.toNat + 1)).toNat)

/-- A 2-byte write (R54). That a failed one changes no byte is the spec's D10; what its fault leaves is R214 by D10, in the
form of notes/assumptions/2.md; the record's ip0 is R211 by D11; the canonical form is notes/assumptions/9.md. -/
def Obligations.WordWriteIsBigEndian : Prop :=
  ∀ (s : State) (ip0 addr v : Word), s.mem.wf →
    (s.mem.size < addr.toNat + 2 → ∃ f, writeWord ip0 addr v s = .error f ∧
      f.record = .outOfBounds addr .word .write false ip0 ∧ f.after = s.setStatus (.faulted f.record)) ∧
    (addr.toNat + 2 ≤ s.mem.size → ∃ t, writeWord ip0 addr v s = .ok t ∧ t.mem.wf ∧
      (t.byteAt addr.toNat).toNat = v.toNat / 256 ∧ (t.byteAt (addr.toNat + 1)).toNat = v.toNat % 256 ∧
      t.wordAt addr = v ∧ MemoryKeptOutside addr s t ∧ RegsKept [] s t ∧ t.sfc = s.sfc ∧ ControlKept s t)

/-- FetchWord (R84; the record's fetch flag and ip0 are R211 by D11) is one 2-byte access at ip, big-endian, that advances ip
by 2 modulo 2^16; a word that starts at the last byte of Memory, or beyond, is the fault OutOfBounds. -/
def Obligations.FetchWordIsOneAccess : Prop :=
  ∀ (s : State) (ip0 : Word),
    ((s.get .ip).toNat + 2 ≤ s.mem.size → ∃ w t, fetchWord ip0 s = .ok (w, t) ∧
      w.toNat = (s.byteAt (s.get .ip).toNat).toNat * 256 + (s.byteAt ((s.get .ip).toNat + 1)).toNat ∧
      (t.get .ip).toNat = ((s.get .ip).toNat + 2) % 65536 ∧ RegsKept [.ip] s t ∧ t.sfc = s.sfc ∧ ControlKept s t ∧
      MemoryKept s t) ∧
    (s.mem.size < (s.get .ip).toNat + 2 → ∃ f, fetchWord ip0 s = .error f ∧
      f.record = .outOfBounds (s.get .ip) .word .read true ip0)

/-! ## Moves -/

/-- MOV_LIT_REG: the destination holds the literal (ip too: a jump), ip is otherwise four further, nothing else changes
(R120, R124). -/
def Obligations.MovLitRegLoadsLiteral : Prop :=
  ∀ (lit : Word) (d : Reg) (s : State), ∃ t, exec (.movLitReg lit d) s = .next t ∧
    t.get d = lit ∧ (d ≠ .ip → t.get .ip = s.get .ip + 4) ∧ RegsKept [.ip, d] s t ∧
    t.sfc = s.sfc ∧ ControlKept s t ∧ MemoryKept s t

/-- MOV_REG_REG: the second operand gets the value of the first, ip as a source reading as the next instruction's address
(R121, which byte is the source by D4, when it is read by D5; R124). -/
def Obligations.MovRegRegCopiesSource : Prop :=
  ∀ (src d : Reg) (s : State), ∃ t, exec (.movRegReg src d) s = .next t ∧
    t.get d = sourceValue s 3 src ∧ (d ≠ .ip → t.get .ip = s.get .ip + 3) ∧ RegsKept [.ip, d] s t ∧
    t.sfc = s.sfc ∧ ControlKept s t ∧ MemoryKept s t

/-- MOV_REG_MEM: the word at the address is the source register's, high byte first, and no other byte changes (R122; the
width by D3). -/
def Obligations.MovRegMemStoresWord : Prop :=
  ∀ (src : Reg) (addr : Word) (s : State), s.mem.wf → addr.toNat + 2 ≤ s.mem.size →
    ∃ t, exec (.movRegMem src addr) s = .next t ∧
      t.byteAt addr.toNat = hiByte (sourceValue s 4 src) ∧ t.byteAt (addr.toNat + 1) = loByte (sourceValue s 4 src) ∧
      MemoryKeptOutside addr s t ∧ t.get .ip = s.get .ip + 4 ∧ RegsKept [.ip] s t ∧ t.sfc = s.sfc ∧ ControlKept s t

/-- MOV_MEM_REG: the destination holds the word at the address; nothing else changes but ip's advance (R123, the width
by D3; R124). -/
def Obligations.MovMemRegLoadsWord : Prop :=
  ∀ (addr : Word) (d : Reg) (s : State), addr.toNat + 2 ≤ s.mem.size →
    ∃ t, exec (.movMemReg addr d) s = .next t ∧
      (t.get d).toNat = (s.byteAt addr.toNat).toNat * 256 + (s.byteAt (addr.toNat + 1)).toNat ∧
      (d ≠ .ip → t.get .ip = s.get .ip + 4) ∧ RegsKept [.ip, d] s t ∧ t.sfc = s.sfc ∧ ControlKept s t ∧ MemoryKept s t

/-- Where the load of MOV_MEM_REG or the store of MOV_REG_MEM leaves the capacity, the step faults after the fetches: no
byte, no register but ip changes (R122, R123, and R214 by D10). -/
def Obligations.MoveOutsideMemoryFaults : Prop :=
  ∀ (r : Reg) (addr : Word) (s : State), s.mem.size < addr.toNat + 2 →
    (∃ f, exec (.movRegMem r addr) s = .fault f ∧ f.record = .outOfBounds addr .word .write false (s.get .ip) ∧
      f.after = (s.set .ip (s.get .ip + 4)).setStatus (.faulted f.record)) ∧
    (∃ f, exec (.movMemReg addr r) s = .fault f ∧ f.record = .outOfBounds addr .word .read false (s.get .ip) ∧
      f.after = (s.set .ip (s.get .ip + 4)).setStatus (.faulted f.record))

/-! ## Arithmetic and branch -/

/-- ADD_REG_REG: acc gets the sum modulo 2^16 of the old values, for all operands, and nothing else changes but ip's advance
(R140, R217). -/
def Obligations.AddRegRegSumsModulo : Prop :=
  ∀ (src1 src2 : Reg) (s : State), ∃ t, exec (.addRegReg src1 src2) s = .next t ∧
    (t.get .acc).toNat = ((sourceValue s 3 src1).toNat + (sourceValue s 3 src2).toNat) % 65536 ∧
    t.get .ip = s.get .ip + 3 ∧ RegsKept [.ip, .acc] s t ∧ t.sfc = s.sfc ∧ ControlKept s t ∧ MemoryKept s t

/-- JMP_NOT_EQ: ip goes to the 8-bit target where the literal differs from acc and to the next instruction where it does not;
nothing else changes (R150, R151). -/
def Obligations.JmpNotEqBranches : Prop :=
  ∀ (lit : Word) (target : Byte) (s : State), ∃ t, exec (.jmpNotEq lit target) s = .next t ∧
    (lit ≠ s.get .acc → (t.get .ip).toNat = target.toNat) ∧ (lit = s.get .acc → t.get .ip = s.get .ip + 4) ∧
    RegsKept [.ip] s t ∧ t.sfc = s.sfc ∧ ControlKept s t ∧ MemoryKept s t

/-! ## Stack -/

/-- PSH_LIT and PSH_REG: the word at the old sp is the operand's value, sp is two lower, the counter grows by CNT_STEP, and no
other byte changes (R160, the amount a parameter by D2; R162, R163). -/
def Obligations.PushInstructionsPush : Prop :=
  ∀ s : State, s.mem.wf → (s.get .sp).toNat + 2 ≤ s.mem.size →
    (∀ lit : Word, ∃ t, exec (.pshLit lit) s = .next t ∧ t.wordAt (s.get .sp) = lit ∧
      t.get .sp = s.get .sp - 2 ∧ t.sfc = s.sfc + cntAmount s.config.cntStep ∧ t.get .ip = s.get .ip + 3 ∧
      MemoryKeptOutside (s.get .sp) s t ∧ RegsKept [.ip, .sp] s t ∧ ControlKept s t) ∧
    (∀ src : Reg, ∃ t, exec (.pshReg src) s = .next t ∧ t.wordAt (s.get .sp) = sourceValue s 2 src ∧
      t.get .sp = s.get .sp - 2 ∧ t.sfc = s.sfc + cntAmount s.config.cntStep ∧ t.get .ip = s.get .ip + 2 ∧
      MemoryKeptOutside (s.get .sp) s t ∧ RegsKept [.ip, .sp] s t ∧ ControlKept s t)

/-- A push whose word leaves the capacity faults with sp, the counter and every byte unchanged (R160 by D15, R162,
R163, R214 by D10). -/
def Obligations.PushOutsideMemoryFaults : Prop :=
  ∀ s : State, s.mem.size < (s.get .sp).toNat + 2 →
    (∀ lit : Word, ∃ f, exec (.pshLit lit) s = .fault f ∧
      f.record = .outOfBounds (s.get .sp) .word .write false (s.get .ip) ∧
      f.after = (s.set .ip (s.get .ip + 3)).setStatus (.faulted f.record)) ∧
    (∀ src : Reg, ∃ f, exec (.pshReg src) s = .fault f ∧
      f.record = .outOfBounds (s.get .sp) .word .write false (s.get .ip) ∧
      f.after = (s.set .ip (s.get .ip + 2)).setStatus (.faulted f.record))

/-- POP_REG: the destination holds the word above sp (sp and ip too), sp is otherwise two higher, the counter falls by
CNT_STEP, and Memory is unchanged (R161, the amount a parameter by D2; R164). -/
def Obligations.PopRegPops : Prop :=
  ∀ (d : Reg) (s : State), (s.get .sp + 2).toNat + 2 ≤ s.mem.size →
    ∃ t, exec (.popReg d) s = .next t ∧ t.get d = s.wordAt (s.get .sp + 2) ∧
      (d ≠ .sp → t.get .sp = s.get .sp + 2) ∧ (d ≠ .ip → t.get .ip = s.get .ip + 2) ∧
      t.sfc = s.sfc - cntAmount s.config.cntStep ∧ RegsKept [.ip, .sp, d] s t ∧ ControlKept s t ∧ MemoryKept s t

/-- A pop whose word leaves the capacity faults with sp already moved, and the counter and the destination unchanged
(R161 by D15, R164, R214 by D10). -/
def Obligations.PopOutsideMemoryFaults : Prop :=
  ∀ (d : Reg) (s : State), s.mem.size < (s.get .sp + 2).toNat + 2 →
    ∃ f, exec (.popReg d) s = .fault f ∧
      f.record = .outOfBounds (s.get .sp + 2) .word .read false (s.get .ip) ∧
      f.after = ((s.set .ip (s.get .ip + 2)).set .sp (s.get .sp + 2)).setStatus (.faulted f.record)

/-- R166 (the counter's part spec-derived): a push followed at once by a pop returns the value and leaves sp and the counter
as they were. -/
def Obligations.PushThenPopRoundTrip : Prop :=
  ∀ (s : State) (v ip0 ip1 : Word), s.mem.wf → (s.get .sp).toNat + 2 ≤ s.mem.size →
    ∃ t u, push ip0 v s = .ok t ∧ pop ip1 t = .ok (v, u) ∧ u.get .sp = s.get .sp ∧ u.sfc = s.sfc

/-! ## Calls and return -/

/-- CAL_LIT and CAL_REG: the frame of R183 is stored, sp and fp are 20 lower than sp was, the counter is 0, ip is the target,
and nothing else changes (R181, R183, R185, and R186, when the register is read by D6). -/
def Obligations.CallsBuildTheFrame : Prop :=
  ∀ s : State, s.Inv → PushesFit s.mem.size (s.get .sp) 10 →
    (∀ target : Word, ∃ t, exec (.calLit target) s = .next t ∧ CallResult s 3 target t) ∧
    (∀ src : Reg, ∃ t, exec (.calReg src) s = .next t ∧ CallResult s 2 (sourceValue s 2 src) t)

/-- A call faults at its first push that leaves the capacity; the earlier pushes keep their effects, and fp and the target are
not reached (R181, R185, R186, and R214 by D10). -/
def Obligations.CallFaultKeepsEarlierPushes : Prop :=
  ∀ (s : State) (k : Nat), s.Inv → k < 10 → PushesFit s.mem.size (s.get .sp) k →
    s.mem.size < (pushAddr (s.get .sp) k).toNat + 2 →
    ∀ (i : Instr) (len : Nat), (∃ target, i = .calLit target ∧ len = 3) ∨ (∃ src, i = .calReg src ∧ len = 2) →
    ∃ f, exec i s = .fault f ∧
      f.record = .outOfBounds (pushAddr (s.get .sp) k) .word .write false (s.get .ip) ∧
      f.after.status = .faulted f.record ∧ f.after.config = s.config ∧ f.after.mem.size = s.mem.size ∧
      f.after.get .ip = s.get .ip + BitVec.ofNat 16 len ∧ f.after.get .sp = pushAddr (s.get .sp) k ∧
      RegsKept [.ip, .sp] s f.after ∧ f.after.sfc = s.sfc + BitVec.ofNat 16 k * cntAmount s.config.cntStep ∧
      (∀ j < k, f.after.wordAt (pushAddr (s.get .sp) j) = (callFrame s len).getD j 0) ∧
      ∀ a, (∀ j < k, a ≠ (pushAddr (s.get .sp) j).toNat ∧ a ≠ (pushAddr (s.get .sp) j).toNat + 1) →
        f.after.byteAt a = s.byteAt a

/-- RET: the popped words go where R182 says, `argCount` words are discarded, fp is its old value plus the marker, and nothing
else changes (R182, the way arguments are discarded by D13; R187). -/
def Obligations.RetRestoresFromTheFrame : Prop :=
  ∀ s : State, PopsFit s.mem.size (s.get .fp) (11 + (s.wordAt (popAddr (s.get .fp) 10)).toNat) →
    ∃ t, exec .ret s = .next t ∧ ReturnResult s t

/-- RET faults at its first pop that leaves the capacity, the `k`-th, and the earlier pops keep their effects: ip is the popped
return address from k = 2 on and past RET before, each of r8 to r1 already popped holds its word and the others their old
value, the counter is what the successful pops left; sp is at the failing pop's address, and fp, acc and every byte are
unchanged (R182 by D13, R187, R214 by D10). -/
def Obligations.RetFaultsAtFirstBadPop : Prop :=
  ∀ (s : State) (k : Nat), k < 11 + (s.wordAt (popAddr (s.get .fp) 10)).toNat → PopsFit s.mem.size (s.get .fp) k →
    s.mem.size < (popAddr (s.get .fp) k).toNat + 2 →
    ∃ f, exec .ret s = .fault f ∧ f.record = .outOfBounds (popAddr (s.get .fp) k) .word .read false (s.get .ip) ∧
      f.after.status = .faulted f.record ∧ f.after.get .sp = popAddr (s.get .fp) k ∧ f.after.get .fp = s.get .fp ∧
      f.after.get .acc = s.get .acc ∧
      (∀ slot ∈ retSlots, slot.2 < k → f.after.get slot.1 = s.wordAt (popAddr (s.get .fp) slot.2)) ∧
      (∀ slot ∈ retSlots, k ≤ slot.2 → f.after.get slot.1 = (if slot.1 = .ip then s.get .ip + 1 else s.get slot.1)) ∧
      f.after.sfc = retCounter s k ∧ f.after.config = s.config ∧ MemoryKept s f.after

/-- R188 (in this form spec-derived, with D2): a call and the RET of its undisturbed frame restore r1 to r8 and ip, leave sp
at `S + 2 + 2n`, and, where the caller's frame was consistent, leave fp at the caller's fp with CNT_STEP 2 and elsewhere with
CNT_STEP 1. -/
def Obligations.CallThenReturnRestores : Prop :=
  ∀ (s t u : State) (i : Instr) (len : Nat), s.Inv → PushesFit s.mem.size (s.get .sp) 10 →
    ((∃ target, i = .calLit target ∧ len = 3) ∨ ∃ src, i = .calReg src ∧ len = 2) →
    exec i s = .next t → u.config = t.config → u.mem.size = t.mem.size → u.get .fp = t.get .fp →
    (∀ k < 10, u.wordAt (pushAddr (s.get .sp) k) = t.wordAt (pushAddr (s.get .sp) k)) →
    PopsFit u.mem.size (s.get .sp) (1 + (u.wordAt (s.get .sp + 2)).toNat) →
    ∃ v, exec .ret u = .next v ∧
      (∀ r ∈ savedRegs, v.get r = s.get r) ∧ v.get .ip = s.get .ip + BitVec.ofNat 16 len ∧
      v.get .sp = s.get .sp + 2 + 2 * u.wordAt (s.get .sp + 2) ∧ v.get .acc = u.get .acc ∧
      (s.sfc = s.get .fp - s.get .sp → s.config.cntStep = .two → v.get .fp = s.get .fp) ∧
      (s.sfc = s.get .fp - s.get .sp → s.config.cntStep = .one → v.get .fp ≠ s.get .fp)

/-- The drift of repeated calls (R189, spec-derived): with CNT_STEP 2, a call made while the counter is `F - sp + d` returns
with fp = `F + d` and the counter `d + 2` above the depth `F - sp`: the first call from a frame (`d = 0`) is exact, and each
further one drifts by 2 more. -/
def Obligations.RepeatedCallsDriftByTwo : Prop :=
  ∀ (s t u : State) (i : Instr) (len : Nat) (F d : Word), s.Inv → PushesFit s.mem.size (s.get .sp) 10 →
    ((∃ target, i = .calLit target ∧ len = 3) ∨ ∃ src, i = .calReg src ∧ len = 2) →
    s.config.cntStep = .two → s.sfc = F - s.get .sp + d →
    exec i s = .next t → u.config = t.config → u.mem.size = t.mem.size → u.get .fp = t.get .fp →
    (∀ k < 10, u.wordAt (pushAddr (s.get .sp) k) = t.wordAt (pushAddr (s.get .sp) k)) →
    PopsFit u.mem.size (s.get .sp) (1 + (u.wordAt (s.get .sp + 2)).toNat) →
    ∃ v, exec .ret u = .next v ∧ v.get .fp = F + d ∧ v.sfc = F - v.get .sp + d + 2

/-! ## Every instruction -/

/-- An unassigned byte under the policy `nop` completes: ip one further and nothing else (R89). -/
def Obligations.UnassignedIsOneByteNop : Prop :=
  ∀ (op : Byte) (s : State), s.config.policy = .nop →
    ∃ t, exec (.unassigned op) s = .next t ∧ t.get .ip = s.get .ip + 1 ∧ RegsKept [.ip] s t ∧ t.sfc = s.sfc ∧
      ControlKept s t ∧ MemoryKept s t

/-- What any instruction leaves unchanged, and what it makes of the frame counter: a register outside `writtenRegs`, a byte
outside the words it stores, the parameters, the status and the capacity are unchanged; the counter changes only as R31
lists. -/
def Obligations.EveryInstructionFrame : Prop :=
  ∀ (i : Instr) (s t : State), exec i s = .next t →
    RegsKept (writtenRegs i) s t ∧ ControlKept s t ∧ t.mem.size = s.mem.size ∧ t.sfc = counterAfter i s ∧
    ∀ a, (∀ w ∈ storedWords i s, a ≠ w.toNat ∧ a ≠ w.toNat + 1) → t.byteAt a = s.byteAt a

/-- Calls and return apart, fp changes only where an instruction names it as its destination (R28, R180). -/
def Obligations.OnlyCallsAndReturnMoveFp : Prop :=
  ∀ s t : State, s.Inv → step s = .next t → t.get .fp ≠ s.get .fp →
    ∃ bytes i rest, BytesAtIp bytes s ∧ decode bytes = .ok (i, rest) ∧
      (i = .ret ∨ (∃ a, i = .calLit a) ∨ (∃ r, i = .calReg r) ∨ (∃ l, i = .movLitReg l .fp) ∨
        (∃ r, i = .movRegReg r .fp) ∨ (∃ a, i = .movMemReg a .fp) ∨ i = .popReg .fp)

/-! ## Registers and opcodes -/

/-- R21: a register is 16 bits wide and unsigned, a write stores its value modulo 2^16, and a read returns the last value
stored, whatever other register was written since. -/
def Obligations.RegisterReadsLastValueStored : Prop :=
  ∀ (s : State) (r : Reg) (v : Int),
    (s.get r).toNat < 65536 ∧
    (((s.set r (BitVec.ofInt 16 v)).get r).toNat : Int) = v % 65536 ∧
    ∀ r' w, r' ≠ r → ((s.set r (BitVec.ofInt 16 v)).set r' w).get r = (s.set r (BitVec.ofInt 16 v)).get r

/-- R91: one opcode byte always means the same instruction, whatever follows it and whatever the state. -/
def Obligations.OneOpcodeOneInstruction : Prop :=
  ∀ (op : Byte) (b b' rest rest' : List Byte) (i i' : Instr),
    decode (op :: b) = .ok (i, rest) → decode (op :: b') = .ok (i', rest') →
    i.opcode = i'.opcode ∧ (encode i).head? = some op ∧ (encode i').head? = some op

/-! ## Runs -/

/-- A run of a RUNNING engine ends in exactly two ways (R250; the finite forms by D18): after `n` steps either all have
completed and the host has stopped, or one of them has faulted, and every later state of the run is the one that fault left
(R97 by D10, R214 by D10; the form of notes/assumptions/2.md). -/
def Obligations.RunEndsByFaultOrHost : Prop :=
  ∀ (s : State) (n : Nat), s.status = .running →
    (stepN n s = some (runN n s) ∧ (runN n s).runEnd = .hostStopped) ∨
    ∃ k < n, ∃ t f, stepN k s = some t ∧ step t = .fault f ∧ (runN n s).runEnd = .faulted f.record ∧
      ∀ m, k < m → runN m s = f.after

/-- A run that has come to its stop address stays there: every later state is the same (R250 by D18, R251, spec-derived). -/
def Obligations.StoppedRunStays : Prop :=
  ∀ (stop : Word) (n : Nat) (s t : State), s.mem.size ≤ Config.maxMemSize → StopsAt stop n s t →
    ∀ m, n ≤ m → runN m s = t
end

