-- ==== Sys2Proof/Laws/Decode.lean ====
section
/-! SUPPORT. The opcode map and the register operands in both directions (R23, R88, R93). -/

namespace Sys2Proof

@[simp] theorem Opcode.ofByte_byte (o : Opcode) : Opcode.ofByte o.byte = some o := by cases o <;> rfl

/-- An opcode byte names an opcode exactly when it is that opcode's byte (R88). -/
theorem Opcode.ofByte_eq_some_iff (b : Byte) (o : Opcode) : Opcode.ofByte b = some o ↔ b = o.byte := by
  constructor
  · intro h
    have := List.find?_some h
    exact (beq_iff_eq.mp this).symm
  · rintro rfl; exact Opcode.ofByte_byte o

@[simp] theorem resolveReg_byte (r : Reg) : resolveReg r.byte = r := by cases r <;> rfl

@[simp] theorem Reg.index_ofIndex (n : Nat) : (Reg.ofIndex n).index = n % 12 := by
  unfold Reg.ofIndex
  have : n % 12 < 12 := Nat.mod_lt _ (by decide)
  generalize n % 12 = k at *
  interval_cases k <;> rfl

@[simp] theorem decode_byte_cons (o : Opcode) (rest : List Byte) : decode (o.byte :: rest) = decodeOperands o rest := by
  simp [decode]

end Sys2Proof
end

