-- ==== Sys2Proof/Laws/State.lean ====
section
/-! SUPPORT. One lemma per field per update of `State`, so that no later proof unfolds a record update. -/

namespace Sys2Proof.Machine

variable (s : State) (r r' : Reg) (v : Word) (m : Memory) (st : Status)

@[simp] theorem RegFile.get_set (f : RegFile) : (f.set r v).get r' = if r' = r then v else f.get r' := by
  cases r <;> cases r' <;> rfl

/-- Register files with equal registers are equal. -/
theorem RegFile.eq_of_get_eq {f g : RegFile} (h : ∀ r, f.get r = g.get r) : f = g := by
  cases f; cases g
  simp only [RegFile.mk.injEq]
  exact ⟨h .ip, h .acc, h .r1, h .r2, h .r3, h .r4, h .r5, h .r6, h .r7, h .r8, h .sp, h .fp⟩

@[simp] theorem State.set_get : (s.set r v).get r' = if r' = r then v else s.get r' := RegFile.get_set r r' v s.regs
@[simp] theorem State.set_config : (s.set r v).config = s.config := rfl
@[simp] theorem State.set_sfc : (s.set r v).sfc = s.sfc := rfl
@[simp] theorem State.set_status : (s.set r v).status = s.status := rfl
@[simp] theorem State.set_mem : (s.set r v).mem = s.mem := rfl
@[simp] theorem State.set_byteAt (a : Nat) : (s.set r v).byteAt a = s.byteAt a := rfl
@[simp] theorem State.set_wordAt (a : Word) : (s.set r v).wordAt a = s.wordAt a := rfl

@[simp] theorem State.setSfc_get : (s.setSfc v).get r = s.get r := rfl
@[simp] theorem State.setSfc_config : (s.setSfc v).config = s.config := rfl
@[simp] theorem State.setSfc_sfc : (s.setSfc v).sfc = v := rfl
@[simp] theorem State.setSfc_status : (s.setSfc v).status = s.status := rfl
@[simp] theorem State.setSfc_mem : (s.setSfc v).mem = s.mem := rfl
@[simp] theorem State.setSfc_byteAt (a : Nat) : (s.setSfc v).byteAt a = s.byteAt a := rfl
@[simp] theorem State.setSfc_wordAt (a : Word) : (s.setSfc v).wordAt a = s.wordAt a := rfl

@[simp] theorem State.setMem_get : (s.setMem m).get r = s.get r := rfl
@[simp] theorem State.setMem_config : (s.setMem m).config = s.config := rfl
@[simp] theorem State.setMem_sfc : (s.setMem m).sfc = s.sfc := rfl
@[simp] theorem State.setMem_status : (s.setMem m).status = s.status := rfl
@[simp] theorem State.setMem_mem : (s.setMem m).mem = m := rfl
@[simp] theorem State.setMem_byteAt (a : Nat) : (s.setMem m).byteAt a = m.byteAt a := rfl
@[simp] theorem State.setMem_wordAt (a : Word) : (s.setMem m).wordAt a = m.wordAt a.toNat := rfl

@[simp] theorem State.setStatus_get : (s.setStatus st).get r = s.get r := rfl
@[simp] theorem State.setStatus_config : (s.setStatus st).config = s.config := rfl
@[simp] theorem State.setStatus_sfc : (s.setStatus st).sfc = s.sfc := rfl
@[simp] theorem State.setStatus_status : (s.setStatus st).status = st := rfl
@[simp] theorem State.setStatus_mem : (s.setStatus st).mem = s.mem := rfl
@[simp] theorem State.setStatus_byteAt (a : Nat) : (s.setStatus st).byteAt a = s.byteAt a := rfl
@[simp] theorem State.setStatus_wordAt (a : Word) : (s.setStatus st).wordAt a = s.wordAt a := rfl

variable (n : Nat)

@[simp] theorem State.advance_get :
    (s.advance n).get r = if r = .ip then s.get .ip + BitVec.ofNat 16 n else s.get r := State.set_get s .ip r _
@[simp] theorem State.advance_config : (s.advance n).config = s.config := rfl
@[simp] theorem State.advance_sfc : (s.advance n).sfc = s.sfc := rfl
@[simp] theorem State.advance_status : (s.advance n).status = s.status := rfl
@[simp] theorem State.advance_mem : (s.advance n).mem = s.mem := rfl
@[simp] theorem State.advance_byteAt (a : Nat) : (s.advance n).byteAt a = s.byteAt a := rfl
@[simp] theorem State.advance_wordAt (a : Word) : (s.advance n).wordAt a = s.wordAt a := rfl

/-- Two states that agree on every register and every other field are equal. -/
theorem State.eq_of_get_eq {s t : State} (hr : ∀ r, s.get r = t.get r) (hc : s.config = t.config)
    (hf : s.sfc = t.sfc) (hs : s.status = t.status) (hm : s.mem = t.mem) : s = t := by
  have h := RegFile.eq_of_get_eq (f := s.regs) (g := t.regs) hr
  cases s; cases t; simp_all

/-- Two advances are one. -/
theorem State.advance_advance (k : Nat) : (s.advance n).advance k = s.advance (n + k) := by
  apply State.eq_of_get_eq <;> try rfl
  intro r
  by_cases h : r = .ip <;> simp [h, BitVec.ofNat_add, BitVec.add_assoc]

@[simp] theorem Fault.ofRecord_record (rec : FaultRecord) : (Fault.ofRecord rec s).record = rec := by
  cases rec <;> rfl
@[simp] theorem Fault.ofRecord_after (rec : FaultRecord) : (Fault.ofRecord rec s).after = s := by
  cases rec <;> rfl
@[simp] theorem State.raise_record (rec : FaultRecord) : (s.raise rec).record = rec := Fault.ofRecord_record _ rec
@[simp] theorem State.raise_after (rec : FaultRecord) : (s.raise rec).after = s.setStatus (.faulted rec) :=
  Fault.ofRecord_after _ rec

end Sys2Proof.Machine
end

