-- ==== Sys2Proof/Laws/Memory.lean ====
section
/-! SUPPORT. The Memory: reading after writing, the canonical form (R51 to R58, R64). -/

namespace Sys2Proof

@[simp] theorem joinBytes_hi_lo (w : Word) : joinBytes (hiByte w) (loByte w) = w := by
  apply BitVec.eq_of_getLsbD_eq
  intro i hi
  simp only [joinBytes, hiByte, loByte, BitVec.getLsbD_append, BitVec.getLsbD_extractLsb']
  by_cases h : i < 8
  · simp [h]
  · simp only [h, decide_false]
    rw [show 8 + (i - 8) = i by omega]
    simp; omega

@[simp] theorem hiByte_joinBytes (a b : Byte) : hiByte (joinBytes a b) = a := by
  apply BitVec.eq_of_getLsbD_eq
  intro i hi
  have : (a ++ b).getLsbD (8 + i) = a.getLsbD i := by
    rw [BitVec.getLsbD_append]
    simp
  simpa [joinBytes, hiByte, hi] using this

@[simp] theorem loByte_joinBytes (a b : Byte) : loByte (joinBytes a b) = b := by
  apply BitVec.eq_of_getLsbD_eq
  intro i hi
  have : (a ++ b).getLsbD i = b.getLsbD i := by
    rw [BitVec.getLsbD_append]
    simp [hi]
  simpa [joinBytes, loByte, hi] using this

/-- The high byte of a word is its value divided by 256 (R8). -/
theorem hiByte_toNat (w : Word) : (hiByte w).toNat = w.toNat / 256 := by
  have := w.isLt
  simp only [hiByte, BitVec.extractLsb'_toNat, Nat.shiftRight_eq_div_pow]
  omega

/-- The low byte of a word is its value modulo 256 (R8). -/
theorem loByte_toNat (w : Word) : (loByte w).toNat = w.toNat % 256 := by
  simp [loByte]

/-- The value of two bytes read as a big-endian word (R8). -/
theorem joinBytes_toNat (a b : Byte) : (joinBytes a b).toNat = a.toNat * 256 + b.toNat := by
  have h1 := hiByte_toNat (joinBytes a b)
  have h2 := loByte_toNat (joinBytes a b)
  rw [hiByte_joinBytes] at h1
  rw [loByte_joinBytes] at h2
  omega

end Sys2Proof

namespace Sys2Proof.Machine

/-- A write leaves every other address as it was, in any list of cells. -/
theorem readCells_writeCells_of_ne (l : List Host.Cell) {a b : Nat} (v : Byte) (h : b ≠ a) :
    readCells (writeCells l a v) b = readCells l b := by
  induction l with
  | nil => by_cases hv : v = unwrittenByte <;> simp [writeCells, readCells, hv, h.symm]
  | cons c rest ih =>
    obtain ⟨k, w⟩ := c
    simp only [writeCells]
    by_cases h1 : a < k
    · by_cases hv : v = unwrittenByte <;> simp [readCells, h1, hv, h.symm]
    · by_cases h2 : a = k
      · subst h2
        by_cases hv : v = unwrittenByte <;> simp [readCells, hv, h.symm]
      · simp [h1, h2, readCells, ih]

/-- An address below every listed one reads as unwritten. -/
theorem readCells_of_lt (l : List Host.Cell) {a : Nat} (h : ∀ c ∈ l, a < c.1) : readCells l a = unwrittenByte := by
  induction l with
  | nil => rfl
  | cons c rest ih =>
    have := h c (by simp)
    simp only [readCells]
    rw [if_neg (by omega)]
    exact ih fun d hd => h d (by simp [hd])

/-- A write is read back, in a list in canonical form. -/
theorem readCells_writeCells_same (l : List Host.Cell) (a : Nat) (v : Byte)
    (hl : l.Pairwise fun c d => c.1 < d.1) : readCells (writeCells l a v) a = v := by
  induction l with
  | nil => by_cases hv : v = unwrittenByte <;> simp [writeCells, readCells, hv]
  | cons c rest ih =>
    obtain ⟨k, w⟩ := c
    obtain ⟨hk, hr⟩ := List.pairwise_cons.mp hl
    have below : a ≤ k → readCells rest a = unwrittenByte := fun h =>
      readCells_of_lt _ fun d hd => by have := hk d hd; simp at this; omega
    simp only [writeCells]
    by_cases h1 : a < k
    · by_cases hv : v = unwrittenByte
      · simp [readCells, h1, hv, show ¬k = a by omega, below (by omega)]
      · simp [readCells, h1, hv]
    · by_cases h2 : a = k
      · subst h2
        by_cases hv : v = unwrittenByte
        · simp [hv, below (by omega)]
        · simp [readCells, hv]
      · simp [h1, h2, readCells, show ¬k = a by omega, ih hr]

/-- Every cell after a write is the written one or an old one. -/
theorem mem_writeCells {l : List Host.Cell} {a : Nat} {v : Byte} {c : Host.Cell} (h : c ∈ writeCells l a v) :
    (c = (a, v) ∧ v ≠ unwrittenByte) ∨ c ∈ l := by
  induction l with
  | nil => by_cases hv : v = unwrittenByte <;> simp_all [writeCells]
  | cons d rest ih =>
    obtain ⟨k, w⟩ := d
    simp only [writeCells] at h
    by_cases hv : v = unwrittenByte <;> by_cases h1 : a < k <;> by_cases h2 : a = k <;> simp_all <;> tauto

/-- A write keeps the addresses strictly rising. -/
theorem writeCells_pairwise {l : List Host.Cell} (a : Nat) (v : Byte) (hl : l.Pairwise fun c d => c.1 < d.1) :
    (writeCells l a v).Pairwise fun c d => c.1 < d.1 := by
  induction l with
  | nil => by_cases hv : v = unwrittenByte <;> simp [writeCells, hv]
  | cons d rest ih =>
    obtain ⟨k, w⟩ := d
    obtain ⟨hk, hr⟩ := List.pairwise_cons.mp hl
    simp only [writeCells]
    by_cases h1 : a < k
    · by_cases hv : v = unwrittenByte
      · simpa [h1, hv] using ⟨fun x y h => hk (x, y) h, hr⟩
      · simp only [h1, hv, if_true, if_false, List.pairwise_cons]
        refine ⟨fun c hc => ?_, hk, hr⟩
        rcases List.mem_cons.mp hc with rfl | hc
        · exact h1
        · have := hk c hc; simp at this; omega
    · by_cases h2 : a = k
      · subst h2
        by_cases hv : v = unwrittenByte
        · simpa [hv] using hr
        · simp only [h1, hv, if_true, if_false, List.pairwise_cons]
          exact ⟨hk, hr⟩
      · simp only [h1, h2, if_false, List.pairwise_cons]
        refine ⟨fun c hc => ?_, ih hr⟩
        rcases mem_writeCells hc with ⟨rfl, -⟩ | hc
        · simp; omega
        · exact hk c hc

namespace Memory

variable (m : Memory) (a b : Nat) (v : Byte) (w : Word)

@[simp] theorem setByte_size : (m.setByte a v).size = m.size := rfl
@[simp] theorem setWord_size : (m.setWord a w).size = m.size := rfl
@[simp] theorem create_size : (create a).size = a := rfl
@[simp] theorem create_byteAt : (create a).byteAt b = 0 := rfl

/-- A byte write leaves every other byte as it was. -/
theorem setByte_byteAt_of_ne (h : b ≠ a) : (m.setByte a v).byteAt b = m.byteAt b :=
  readCells_writeCells_of_ne _ v h

/-- A byte write is read back. -/
theorem setByte_byteAt_same (hm : m.wf) : (m.setByte a v).byteAt a = v := readCells_writeCells_same _ a v hm.1

/-- A byte write inside the capacity keeps the canonical form. -/
theorem setByte_wf (hm : m.wf) (ha : a < m.size) : (m.setByte a v).wf := by
  refine ⟨writeCells_pairwise a v hm.1, fun c hc => ?_⟩
  rcases mem_writeCells hc with ⟨rfl, hv⟩ | hc
  · exact ⟨ha, hv⟩
  · exact hm.2 c hc

/-- A word write leaves every byte but its two as it was. -/
theorem setWord_byteAt_of_ne (h : b ≠ a) (h' : b ≠ a + 1) : (m.setWord a w).byteAt b = m.byteAt b := by
  simp only [setWord]
  rw [setByte_byteAt_of_ne _ _ _ _ h', setByte_byteAt_of_ne _ _ _ _ h]

/-- A word write inside the capacity keeps the canonical form. -/
theorem setWord_wf (hm : m.wf) (ha : a + 2 ≤ m.size) : (m.setWord a w).wf :=
  setByte_wf _ _ _ (setByte_wf _ _ _ hm (by omega)) (by simp; omega)

/-- A word write puts the high byte at the lower address. -/
theorem setWord_byteAt_hi (hm : m.wf) : (m.setWord a w).byteAt a = hiByte w := by
  simp only [setWord]
  rw [setByte_byteAt_of_ne _ _ _ _ (by omega), setByte_byteAt_same _ _ _ hm]

/-- A word write puts the low byte at the higher address. -/
theorem setWord_byteAt_lo (hm : m.wf) (ha : a + 2 ≤ m.size) : (m.setWord a w).byteAt (a + 1) = loByte w := by
  simp only [setWord]
  exact setByte_byteAt_same _ _ _ (setByte_wf _ _ _ hm (by omega))

/-- A word write is read back. -/
theorem setWord_wordAt (hm : m.wf) (ha : a + 2 ≤ m.size) : (m.setWord a w).wordAt a = w := by
  simp only [wordAt]
  rw [setWord_byteAt_hi _ _ _ hm, setWord_byteAt_lo _ _ _ hm ha, joinBytes_hi_lo]

/-- A word write leaves every word that does not overlap it as it was. -/
theorem setWord_wordAt_of_apart (h : b + 2 ≤ a ∨ a + 2 ≤ b) : (m.setWord a w).wordAt b = m.wordAt b := by
  simp only [wordAt]
  rw [setWord_byteAt_of_ne _ _ _ _ (by omega) (by omega), setWord_byteAt_of_ne _ _ _ _ (by omega) (by omega)]

/-- A word address that passes the bounds check lies wholly inside the capacity. -/
theorem inBounds_word (x : Word) : m.inBounds x .word = true ↔ x.toNat + 2 ≤ m.size :=
  decide_eq_true_iff

/-- A byte address that passes the bounds check lies inside the capacity. -/
theorem inBounds_byte (x : Word) : m.inBounds x .byte = true ↔ x.toNat < m.size :=
  decide_eq_true_iff

/-- A newly created Memory is in canonical form. -/
theorem create_wf : (create a).wf := ⟨List.Pairwise.nil, fun _ h => nomatch h⟩

/-- Placing bytes keeps the capacity. -/
@[simp] theorem placeBytes_size (x : Word) (bs : List Byte) : (m.placeBytes x bs).size = m.size := by
  induction bs generalizing m x with
  | nil => rfl
  | cons c bs ih =>
    simp only [placeBytes, ih]
    split <;> rfl

/-- Placing bytes keeps the canonical form. -/
theorem placeBytes_wf (x : Word) (bs : List Byte) (hm : m.wf) : (m.placeBytes x bs).wf := by
  induction bs generalizing m x with
  | nil => exact hm
  | cons c bs ih =>
    simp only [placeBytes]
    apply ih
    split
    · next h => exact setByte_wf _ _ _ hm h
    · exact hm

end Memory

end Sys2Proof.Machine
end

