-- ==== Sys2Proof/Laws/Ops.lean ====
section
/-! SUPPORT. What each shared operation answers, said once: in closed form where nothing faults, and what every answer keeps. -/

namespace Sys2Proof.Machine

variable (fetch : Bool) (ip0 addr v : Word) (s : State)

@[simp] theorem ok_bind {α β : Type} (a : α) (f : α → Except Fault β) : (Except.ok a >>= f) = f a := rfl
@[simp] theorem error_bind {α β : Type} (e : Fault) (f : α → Except Fault β) :
    ((Except.error e : Except Fault α) >>= f) = .error e := rfl

@[simp] theorem settle_ok : settle (.ok s) = .next s := rfl
@[simp] theorem settle_error (f : Fault) : settle (.error f) = .fault f := rfl
@[simp] theorem pure_eq_ok {α : Type} (a : α) : (pure a : Except Fault α) = .ok a := rfl

/-! ## One access -/

/-- A byte read inside the capacity answers the byte (R52). -/
theorem readByte_of_inBounds (h : addr.toNat < s.mem.size) :
    readByte fetch ip0 addr s = .ok (s.byteAt addr.toNat) := by
  rw [readByte, if_pos ((s.mem.inBounds_byte addr).mpr h)]; rfl

/-- A byte read outside the capacity faults and changes nothing else (R52, R214). -/
theorem readByte_of_outOfBounds (h : s.mem.size ≤ addr.toNat) :
    readByte fetch ip0 addr s = .error (s.raise (.outOfBounds addr .byte .read fetch ip0)) := by
  rw [readByte, if_neg (fun hb => by have := (s.mem.inBounds_byte addr).mp hb; omega)]

/-- A word read inside the capacity answers the word (R53). -/
theorem readWord_of_inBounds (h : addr.toNat + 2 ≤ s.mem.size) :
    readWord fetch ip0 addr s = .ok (s.wordAt addr) := by
  rw [readWord, if_pos ((s.mem.inBounds_word addr).mpr h)]; rfl

/-- A word read outside the capacity faults and changes nothing else (R53, R214). -/
theorem readWord_of_outOfBounds (h : s.mem.size < addr.toNat + 2) :
    readWord fetch ip0 addr s = .error (s.raise (.outOfBounds addr .word .read fetch ip0)) := by
  rw [readWord, if_neg (fun hb => by have := (s.mem.inBounds_word addr).mp hb; omega)]

/-- A word write inside the capacity stores the word (R54). -/
theorem writeWord_of_inBounds (h : addr.toNat + 2 ≤ s.mem.size) :
    writeWord ip0 addr v s = .ok (s.setMem (s.mem.setWord addr.toNat v)) := by
  rw [writeWord, if_pos ((s.mem.inBounds_word addr).mpr h)]

/-- A word write outside the capacity faults and changes no byte (R54, R214). -/
theorem writeWord_of_outOfBounds (h : s.mem.size < addr.toNat + 2) :
    writeWord ip0 addr v s = .error (s.raise (.outOfBounds addr .word .write false ip0)) := by
  rw [writeWord, if_neg (fun hb => by have := (s.mem.inBounds_word addr).mp hb; omega)]

/-! ## One push, one pop -/

/-- The state a push leaves (R160). -/
def State.pushed (s : State) (v : Word) : State :=
  ((s.setMem (s.mem.setWord (s.get .sp).toNat v)).set .sp (s.get .sp - 2)).setSfc (s.sfc + cntAmount s.config.cntStep)

/-- The state a pop leaves (R161). -/
def State.popped (s : State) : State :=
  (s.set .sp (s.get .sp + 2)).setSfc (s.sfc - cntAmount s.config.cntStep)

@[simp] theorem State.pushed_get (r : Reg) :
    (s.pushed v).get r = if r = .sp then s.get .sp - 2 else s.get r := by simp [State.pushed]
@[simp] theorem State.pushed_sfc : (s.pushed v).sfc = s.sfc + cntAmount s.config.cntStep := rfl
@[simp] theorem State.pushed_config : (s.pushed v).config = s.config := rfl
@[simp] theorem State.pushed_status : (s.pushed v).status = s.status := rfl
@[simp] theorem State.pushed_mem : (s.pushed v).mem = s.mem.setWord (s.get .sp).toNat v := rfl

@[simp] theorem State.popped_get (r : Reg) :
    s.popped.get r = if r = .sp then s.get .sp + 2 else s.get r := by simp [State.popped]
@[simp] theorem State.popped_sfc : s.popped.sfc = s.sfc - cntAmount s.config.cntStep := rfl
@[simp] theorem State.popped_config : s.popped.config = s.config := rfl
@[simp] theorem State.popped_status : s.popped.status = s.status := rfl
@[simp] theorem State.popped_mem : s.popped.mem = s.mem := rfl
@[simp] theorem State.popped_wordAt (a : Word) : s.popped.wordAt a = s.wordAt a := rfl

/-- A push inside the capacity (R160). -/
theorem push_of_inBounds (h : (s.get .sp).toNat + 2 ≤ s.mem.size) : push ip0 v s = .ok (s.pushed v) := by
  rw [push]
  simp only [writeWord_of_inBounds _ _ _ _ h, ok_bind]
  rfl

/-- A push outside the capacity faults with sp, the counter and every byte unchanged (R160, R214). -/
theorem push_of_outOfBounds (h : s.mem.size < (s.get .sp).toNat + 2) :
    push ip0 v s = .error (s.raise (.outOfBounds (s.get .sp) .word .write false ip0)) := by
  rw [push]
  simp only [writeWord_of_outOfBounds _ _ _ _ h, error_bind]

/-- A pop inside the capacity (R161). -/
theorem pop_of_inBounds (h : (s.get .sp + 2).toNat + 2 ≤ s.mem.size) :
    pop ip0 s = .ok (s.wordAt (s.get .sp + 2), s.popped) := by
  rw [pop]
  simp only [readWord_of_inBounds false ip0 (s.get .sp + 2) (s.set .sp (s.get .sp + 2)) h, ok_bind]
  rfl

/-- A pop outside the capacity faults with sp moved and the counter unchanged (R161, R214). -/
theorem pop_of_outOfBounds (h : s.mem.size < (s.get .sp + 2).toNat + 2) :
    pop ip0 s =
      .error ((s.set .sp (s.get .sp + 2)).raise (.outOfBounds (s.get .sp + 2) .word .read false ip0)) := by
  rw [pop]
  simp only [readWord_of_outOfBounds false ip0 (s.get .sp + 2) (s.set .sp (s.get .sp + 2)) h, error_bind]

/-! ## Several pushes -/

/-- A Memory with words stored from `a` down, two bytes apart, each address modulo 2^16. -/
def Memory.setWordsDown (m : Memory) (a : Word) : List Word → Memory
  | [] => m
  | v :: vs => (m.setWord a.toNat v).setWordsDown (a - 2) vs

/-- The state that pushing a list of words leaves. -/
def State.pushedAll (s : State) : List Word → State
  | [] => s
  | v :: vs => (s.pushed v).pushedAll vs

@[simp] theorem pushAddr_zero (a : Word) : pushAddr a 0 = a := BitVec.sub_zero a

theorem pushAddr_succ (a : Word) (k : Nat) : pushAddr a (k + 1) = pushAddr (a - 2) k := by
  rw [pushAddr, pushAddr, Nat.mul_add, BitVec.ofNat_add]; bv_omega

theorem pushesFit_head {size n : Nat} {a : Word} (h : PushesFit size a (n + 1)) : a.toNat + 2 ≤ size := by
  simpa using h 0 (by omega)

theorem pushesFit_tail {size n : Nat} {a : Word} (h : PushesFit size a (n + 1)) : PushesFit size (a - 2) n := fun k hk => by
  rw [← pushAddr_succ]; exact h (k + 1) (by omega)

variable (vs ws : List Word)

theorem State.pushedAll_append : s.pushedAll (vs ++ ws) = (s.pushedAll vs).pushedAll ws := by
  induction vs generalizing s with
  | nil => rfl
  | cons v vs ih => exact ih (s.pushed v)

@[simp] theorem State.pushedAll_config : (s.pushedAll vs).config = s.config := by
  induction vs generalizing s with
  | nil => rfl
  | cons v vs ih => exact (ih _).trans rfl

@[simp] theorem State.pushedAll_status : (s.pushedAll vs).status = s.status := by
  induction vs generalizing s with
  | nil => rfl
  | cons v vs ih => exact (ih _).trans rfl

theorem State.pushedAll_get_of_ne {r : Reg} (h : r ≠ .sp) : (s.pushedAll vs).get r = s.get r := by
  induction vs generalizing s with
  | nil => rfl
  | cons v vs ih => exact (ih _).trans (by simp [h])

theorem State.pushedAll_sp : (s.pushedAll vs).get .sp = pushAddr (s.get .sp) vs.length := by
  induction vs generalizing s with
  | nil => simp [State.pushedAll]
  | cons v vs ih =>
    refine (ih _).trans ?_
    rw [State.pushed_get, if_pos rfl, List.length_cons, pushAddr_succ]

theorem State.pushedAll_sfc :
    (s.pushedAll vs).sfc = s.sfc + BitVec.ofNat 16 vs.length * cntAmount s.config.cntStep := by
  induction vs generalizing s with
  | nil => simp [State.pushedAll]
  | cons v vs ih =>
    refine (ih _).trans ?_
    simp only [State.pushed_sfc, State.pushed_config, List.length_cons, BitVec.ofNat_add, BitVec.add_mul, BitVec.one_mul]
    rw [BitVec.add_assoc, BitVec.add_comm (cntAmount _)]

theorem State.pushedAll_mem : (s.pushedAll vs).mem = s.mem.setWordsDown (s.get .sp) vs := by
  induction vs generalizing s with
  | nil => rfl
  | cons v vs ih => exact (ih _).trans (by simp [Memory.setWordsDown])

@[simp] theorem Memory.setWordsDown_size (m : Memory) (a : Word) : (m.setWordsDown a vs).size = m.size := by
  induction vs generalizing m a with
  | nil => rfl
  | cons v vs ih => exact (ih _ _).trans rfl

/-- Words stored inside the capacity keep the canonical form. -/
theorem Memory.setWordsDown_wf (m : Memory) (a : Word) (hm : m.wf) (h : PushesFit m.size a vs.length) :
    (m.setWordsDown a vs).wf := by
  induction vs generalizing m a with
  | nil => exact hm
  | cons v vs ih => exact ih _ _ (Memory.setWord_wf _ _ _ hm (pushesFit_head h)) (pushesFit_tail h)

/-- A byte that no stored word covers reads as before. -/
theorem Memory.setWordsDown_byteAt_of_apart (m : Memory) (a : Word) (b : Nat)
    (h : ∀ k < vs.length, b ≠ (pushAddr a k).toNat ∧ b ≠ (pushAddr a k).toNat + 1) :
    (m.setWordsDown a vs).byteAt b = m.byteAt b := by
  induction vs generalizing m a with
  | nil => rfl
  | cons v vs ih =>
    have h0 := h 0 (by simp)
    rw [pushAddr_zero] at h0
    refine (ih _ _ fun k hk => ?_).trans (Memory.setWord_byteAt_of_ne _ _ _ _ h0.1 h0.2)
    rw [← pushAddr_succ]
    exact h (k + 1) (by simpa using hk)

/-- Each stored word is read back: at most 2^15 words, so that no two share a byte. -/
theorem Memory.setWordsDown_wordAt (m : Memory) (a : Word) (hm : m.wf) (h : PushesFit m.size a vs.length)
    (hsize : m.size ≤ 65536) (hlen : vs.length ≤ 32768) (k : Nat) (hk : k < vs.length) :
    (m.setWordsDown a vs).wordAt (pushAddr a k).toNat = vs[k] := by
  induction vs generalizing m a k with
  | nil => simp at hk
  | cons v vs ih =>
    have hwf := Memory.setWord_wf m a.toNat v hm (pushesFit_head h)
    match k with
    | 0 =>
      simp only [Memory.setWordsDown, Memory.wordAt, pushAddr_zero, List.getElem_cons_zero]
      have apart : ∀ b, b = a.toNat ∨ b = a.toNat + 1 → ∀ j < vs.length,
          b ≠ (pushAddr (a - 2) j).toNat ∧ b ≠ (pushAddr (a - 2) j).toNat + 1 := by
        intro b hb j hj
        have h1 := (pushesFit_tail h) j hj
        have h2 := (pushesFit_head h)
        simp only [List.length_cons] at hlen
        have h3 : (pushAddr (a - 2) j).toNat = (a.toNat + 65536 - 2 + 65536 - 2 * j) % 65536 := by
          rw [pushAddr]; bv_omega
        omega
      rw [Memory.setWordsDown_byteAt_of_apart _ _ _ _ (apart _ (.inl rfl)),
        Memory.setWordsDown_byteAt_of_apart _ _ _ _ (apart _ (.inr rfl)),
        Memory.setWord_byteAt_hi _ _ _ hm, Memory.setWord_byteAt_lo _ _ _ hm (pushesFit_head h), joinBytes_hi_lo]
    | k + 1 =>
      have := ih _ _ hwf (pushesFit_tail h) (by simpa using hsize) (by simp at hlen; omega) k (by simpa using hk)
      rw [pushAddr_succ]
      simpa [Memory.setWordsDown] using this

/-- The ten words the call prologue pushes, first to last (R181, R183). -/
def frameWords (s : State) : List Word :=
  savedRegs.map s.get ++ [s.get .ip, s.sfc + 9 * cntAmount s.config.cntStep + 2]

/-- The state the call prologue leaves (R181). -/
def State.entered (s : State) : State :=
  ((s.pushedAll (frameWords s)).set .fp (s.get .sp - 20)).setSfc 0

/-- Pushing a list of words, one after another. -/
def pushWords (ip0 : Word) : List Word → State → Except Fault State
  | [], s => .ok s
  | v :: vs, s => push ip0 v s >>= pushWords ip0 vs

/-- Pushing words all of them inside the capacity. -/
theorem pushWords_of_fit (h : PushesFit s.mem.size (s.get .sp) vs.length) :
    pushWords ip0 vs s = .ok (s.pushedAll vs) := by
  induction vs generalizing s with
  | nil => rfl
  | cons v vs ih =>
    rw [pushWords, push_of_inBounds _ _ _ (pushesFit_head h), ok_bind]
    exact ih _ (by simpa using (pushesFit_tail h))

/-- Pushing words where the first `vs.length` fit and the next does not: the fault of that push, after the earlier ones. -/
theorem pushWords_of_unfit (h : PushesFit s.mem.size (s.get .sp) vs.length)
    (hv : s.mem.size < (pushAddr (s.get .sp) vs.length).toNat + 2) :
    pushWords ip0 (vs ++ v :: ws) s = .error ((s.pushedAll vs).raise
      (.outOfBounds (pushAddr (s.get .sp) vs.length) .word .write false ip0)) := by
  induction vs generalizing s with
  | nil =>
    rw [List.length_nil, pushAddr_zero] at hv
    rw [List.nil_append, pushWords, push_of_outOfBounds _ _ _ hv, error_bind, List.length_nil, pushAddr_zero]
    rfl
  | cons x vs ih =>
    rw [List.length_cons, pushAddr_succ] at hv
    rw [List.cons_append, pushWords, push_of_inBounds _ _ _ (pushesFit_head h), ok_bind,
      ih (s.pushed x) (by simpa using (pushesFit_tail h)) (by rwa [State.pushed_get, if_pos rfl]), State.pushed_get,
      if_pos rfl, ← pushAddr_succ]
    rfl

theorem pushWords_append : pushWords ip0 (vs ++ ws) s = pushWords ip0 vs s >>= pushWords ip0 ws := by
  induction vs generalizing s with
  | nil => rfl
  | cons v vs ih =>
    simp only [List.cons_append, pushWords]
    cases push ip0 v s with
    | error e => rfl
    | ok t => exact ih t

/-- A push answers `pushed` or a fault. -/
theorem push_cases : push ip0 v s = .ok (s.pushed v) ∨ ∃ f, push ip0 v s = .error f := by
  by_cases h : (s.get .sp).toNat + 2 ≤ s.mem.size
  · exact .inl (push_of_inBounds _ _ _ h)
  · exact .inr ⟨_, push_of_outOfBounds _ _ _ (by omega)⟩

/-- Pushing registers other than sp is pushing the words they hold at the start. -/
theorem pushRegs_eq_pushWords (rs : List Reg) (hsp : .sp ∉ rs) : pushRegs ip0 rs s = pushWords ip0 (rs.map s.get) s := by
  induction rs generalizing s with
  | nil => rfl
  | cons r rs ih =>
    have hr : ∀ x ∈ rs, x ≠ Reg.sp := fun x hx e => hsp (by simp [← e, hx])
    rw [pushRegs, List.map_cons, pushWords]
    rcases push_cases ip0 (s.get r) s with h | ⟨f, h⟩ <;> rw [h]
    · rw [ok_bind, ok_bind, ih (s.pushed (s.get r)) (fun hx => hsp (by simp [hx])),
        List.map_congr_left fun x hx => show (s.pushed (s.get r)).get x = s.get x by simp [hr x hx]]
    · rfl

/-- The call prologue is: push the ten frame words, then set fp to sp and the counter to 0 (R181). -/
theorem pushState_eq_pushWords :
    pushState ip0 s = pushWords ip0 (frameWords s) s >>= fun t => .ok ((t.set .fp (t.get .sp)).setSfc 0) := by
  rw [pushState, pushRegs_eq_pushWords _ _ _ (by decide), frameWords, pushWords_append]
  have after (t : State) (ht : pushWords ip0 (savedRegs.map s.get) s = .ok t) :
      t.get .ip = s.get .ip ∧ t.sfc = s.sfc + 8 * cntAmount s.config.cntStep ∧ t.config = s.config := by
    have main : ∀ (vs : List Word) (s t : State), pushWords ip0 vs s = .ok t → t = s.pushedAll vs := by
      intro vs
      induction vs with
      | nil => intro s t h; cases h; rfl
      | cons v vs ih =>
        intro s t h
        rw [pushWords] at h
        rcases push_cases ip0 v s with h' | ⟨f, h'⟩ <;> rw [h'] at h
        · exact ih _ _ h
        · cases h
    rw [main _ _ _ ht]
    refine ⟨State.pushedAll_get_of_ne _ _ (by decide), ?_, State.pushedAll_config _ _⟩
    rw [State.pushedAll_sfc]
    rfl
  cases hw : pushWords ip0 (savedRegs.map s.get) s with
  | error f => rfl
  | ok t =>
    obtain ⟨hip, hsfc, hc⟩ := after t hw
    simp only [ok_bind, pushWords, hip]
    rcases push_cases ip0 (s.get .ip) t with h | ⟨f, h⟩ <;> rw [h]
    · have hm : (t.pushed (s.get .ip)).sfc + 2 = s.sfc + 9 * cntAmount s.config.cntStep + 2 := by
        rw [State.pushed_sfc, hsfc, hc]
        cases s.config.cntStep <;> simp only [cntAmount] <;> bv_omega
      simp only [ok_bind, hm]
      rcases push_cases ip0 (s.sfc + 9 * cntAmount s.config.cntStep + 2) (t.pushed (s.get .ip)) with h | ⟨f, h⟩ <;>
        rw [h] <;> rfl
    · rfl

@[simp] theorem frameWords_length : (frameWords s).length = 10 := rfl

@[simp] theorem State.entered_get (r : Reg) :
    s.entered.get r = if r = .fp ∨ r = .sp then s.get .sp - 20 else s.get r := by
  by_cases hf : r = .fp
  · simp [State.entered, hf]
  · by_cases hs : r = .sp
    · rw [State.entered, State.setSfc_get, State.set_get, if_neg hf, hs, State.pushedAll_sp]; rfl
    · simp [State.entered, hf, hs, State.pushedAll_get_of_ne]
@[simp] theorem State.entered_sfc : s.entered.sfc = 0 := State.setSfc_sfc _ _
@[simp] theorem State.entered_config : s.entered.config = s.config := by simp [State.entered]
@[simp] theorem State.entered_status : s.entered.status = s.status := by simp [State.entered]
theorem State.entered_mem : s.entered.mem = s.mem.setWordsDown (s.get .sp) (frameWords s) := by
  simp [State.entered, State.pushedAll_mem]

/-- The call prologue, its ten words inside the capacity (R181). -/
theorem pushState_of_fit (h : PushesFit s.mem.size (s.get .sp) 10) : pushState ip0 s = .ok s.entered := by
  rw [pushState_eq_pushWords, pushWords_of_fit _ _ _ h, ok_bind, State.pushedAll_sp, State.entered, frameWords_length]
  rfl

/-! ## Several pops -/

theorem popAddr_zero (a : Word) : popAddr a 0 = a + 2 := rfl

theorem popAddr_succ (a : Word) (k : Nat) : popAddr a (k + 1) = popAddr (a + 2) k := by
  rw [popAddr, popAddr, show 2 * (k + 1) + 2 = 2 + (2 * k + 2) by omega, BitVec.ofNat_add]; bv_omega

theorem popsFit_head {size n : Nat} {a : Word} (h : PopsFit size a (n + 1)) : (a + 2).toNat + 2 ≤ size :=
  h 0 (by omega)

theorem popsFit_tail {size n : Nat} {a : Word} (h : PopsFit size a (n + 1)) : PopsFit size (a + 2) n := fun k hk => by
  rw [← popAddr_succ]; exact h (k + 1) (by omega)

theorem popsFit_drop {size n : Nat} {a : Word} (j : Nat) (h : PopsFit size a (j + n)) :
    PopsFit size (a + BitVec.ofNat 16 (2 * j)) n := by
  induction j generalizing a with
  | zero => simpa using h
  | succ j ih =>
    rw [show a + BitVec.ofNat 16 (2 * (j + 1)) = a + 2 + BitVec.ofNat 16 (2 * j) by
      rw [Nat.mul_add, BitVec.ofNat_add]; bv_omega]
    exact ih (popsFit_tail (by rwa [Nat.add_right_comm] at h))

/-- The state that popping into a list of registers leaves. -/
def State.poppedInto (s : State) : List Reg → State
  | [] => s
  | r :: rs => (s.popped.set r (s.wordAt (s.get .sp + 2))).poppedInto rs

/-- Popping into registers other than sp, every read inside the capacity. -/
theorem popRegs_of_fit (rs : List Reg) (hsp : .sp ∉ rs) (h : PopsFit s.mem.size (s.get .sp) rs.length) :
    popRegs ip0 rs s = .ok (s.poppedInto rs) := by
  induction rs generalizing s with
  | nil => rfl
  | cons r rs ih =>
    have hr : Reg.sp ≠ r := fun e => hsp (by simp [e])
    rw [popRegs, pop_of_inBounds _ _ (popsFit_head h), ok_bind]
    exact ih _ (fun hx => hsp (by simp [hx])) (by simpa [hr] using (popsFit_tail h))

/-- Discarding words, every read inside the capacity (R182 step 6). -/
theorem discard_of_fit (n : Nat) (h : PopsFit s.mem.size (s.get .sp) n) :
    discard ip0 n s = .ok ((s.set .sp (s.get .sp + BitVec.ofNat 16 (2 * n))).setSfc
      (s.sfc - BitVec.ofNat 16 n * cntAmount s.config.cntStep)) := by
  induction n generalizing s with
  | zero =>
    rw [discard]
    congr 1
    apply State.eq_of_get_eq <;> try rfl
    · intro r; by_cases hr : r = .sp <;> simp [hr]
    · simp
  | succ n ih =>
    rw [discard, pop_of_inBounds _ _ (popsFit_head h), ok_bind]
    show discard ip0 n s.popped = _
    rw [ih s.popped (by simpa using (popsFit_tail h))]
    congr 1
    apply State.eq_of_get_eq <;> try rfl
    · intro r
      by_cases hr : r = .sp
      · simp only [hr, State.setSfc_get, State.set_get, State.popped_get, if_true, Nat.mul_add, BitVec.ofNat_add]
        bv_omega
      · simp [hr]
    · simp only [State.setSfc_sfc, State.popped_sfc, State.popped_config, BitVec.ofNat_add, BitVec.add_mul]
      generalize BitVec.ofNat 16 n * _ = x
      rw [show BitVec.ofNat 16 1 * cntAmount s.config.cntStep = cntAmount s.config.cntStep from BitVec.one_mul _]
      bv_omega

/-- The state the call epilogue leaves (R182): above fp stand the marker, the return address, r8 to r1, `argCount`. -/
def State.returned (s : State) : State :=
  let f := s.get .fp
  let marker := s.wordAt (popAddr f 0)
  let n := s.wordAt (popAddr f 10)
  { s with
    regs := {
      ip := s.wordAt (popAddr f 1), acc := s.get .acc, r8 := s.wordAt (popAddr f 2), r7 := s.wordAt (popAddr f 3)
      r6 := s.wordAt (popAddr f 4), r5 := s.wordAt (popAddr f 5), r4 := s.wordAt (popAddr f 6)
      r3 := s.wordAt (popAddr f 7), r2 := s.wordAt (popAddr f 8), r1 := s.wordAt (popAddr f 9)
      sp := f + 22 + 2 * n, fp := f + marker }
    sfc := marker - (10 + n) * cntAmount s.config.cntStep }

theorem State.returned_get (r : Reg) : s.returned.get r =
    match r with
    | .ip => s.wordAt (popAddr (s.get .fp) 1) | .acc => s.get .acc
    | .r8 => s.wordAt (popAddr (s.get .fp) 2) | .r7 => s.wordAt (popAddr (s.get .fp) 3)
    | .r6 => s.wordAt (popAddr (s.get .fp) 4) | .r5 => s.wordAt (popAddr (s.get .fp) 5)
    | .r4 => s.wordAt (popAddr (s.get .fp) 6) | .r3 => s.wordAt (popAddr (s.get .fp) 7)
    | .r2 => s.wordAt (popAddr (s.get .fp) 8) | .r1 => s.wordAt (popAddr (s.get .fp) 9)
    | .sp => s.get .fp + 22 + 2 * s.wordAt (popAddr (s.get .fp) 10)
    | .fp => s.get .fp + s.wordAt (popAddr (s.get .fp) 0) := by cases r <;> rfl
theorem State.returned_sfc : s.returned.sfc = s.wordAt (popAddr (s.get .fp) 0) -
    (10 + s.wordAt (popAddr (s.get .fp) 10)) * cntAmount s.config.cntStep := rfl
@[simp] theorem State.returned_config : s.returned.config = s.config := rfl
@[simp] theorem State.returned_status : s.returned.status = s.status := rfl
@[simp] theorem State.returned_mem : s.returned.mem = s.mem := rfl

/-- What popping r8 to r1 leaves (R182 step 4). -/
theorem poppedInto_savedRegs_get (r : Reg) : (s.poppedInto savedRegs.reverse).get r =
    match r with
    | .sp => s.get .sp + 16
    | .r8 => s.wordAt (popAddr (s.get .sp) 0) | .r7 => s.wordAt (popAddr (s.get .sp) 1)
    | .r6 => s.wordAt (popAddr (s.get .sp) 2) | .r5 => s.wordAt (popAddr (s.get .sp) 3)
    | .r4 => s.wordAt (popAddr (s.get .sp) 4) | .r3 => s.wordAt (popAddr (s.get .sp) 5)
    | .r2 => s.wordAt (popAddr (s.get .sp) 6) | .r1 => s.wordAt (popAddr (s.get .sp) 7)
    | .ip => s.get .ip | .acc => s.get .acc | .fp => s.get .fp := by
  rw [show savedRegs.reverse = [.r8, .r7, .r6, .r5, .r4, .r3, .r2, .r1] from rfl]
  simp only [State.poppedInto]
  cases r <;> simp [BitVec.add_assoc, popAddr]

theorem poppedInto_config (rs : List Reg) : (s.poppedInto rs).config = s.config := by
  induction rs generalizing s with
  | nil => rfl
  | cons r rs ih => exact (ih _).trans (by simp)

theorem poppedInto_status (rs : List Reg) : (s.poppedInto rs).status = s.status := by
  induction rs generalizing s with
  | nil => rfl
  | cons r rs ih => exact (ih _).trans (by simp)

theorem poppedInto_mem (rs : List Reg) : (s.poppedInto rs).mem = s.mem := by
  induction rs generalizing s with
  | nil => rfl
  | cons r rs ih => exact (ih _).trans (by simp)

theorem poppedInto_sfc (rs : List Reg) :
    (s.poppedInto rs).sfc = s.sfc - BitVec.ofNat 16 rs.length * cntAmount s.config.cntStep := by
  induction rs generalizing s with
  | nil => simp [State.poppedInto]
  | cons r rs ih =>
    refine (ih _).trans ?_
    simp only [State.set_sfc, State.popped_sfc, State.set_config, State.popped_config, List.length_cons,
      BitVec.ofNat_add, BitVec.add_mul]
    rw [show BitVec.ofNat 16 1 * cntAmount s.config.cntStep = cntAmount s.config.cntStep from BitVec.one_mul _]
    ring

/-- The end of the call epilogue: r8 to r1, `argCount`, the discarded words, fp (R182 steps 4 to 7). -/
def popStateTail (ip0 v : Word) (s : State) : Except Fault State := do
  let s ← popRegs ip0 savedRegs.reverse s
  let (n, s) ← pop ip0 s
  let s ← discard ip0 n.toNat s
  return s.set .fp v

/-- The end of the call epilogue, every read inside the capacity. -/
theorem popStateTail_of_fit (h : PopsFit s.mem.size (s.get .sp) (9 + (s.wordAt (popAddr (s.get .sp) 8)).toNat)) :
    ∃ t, popStateTail ip0 v s = .ok t ∧ t.config = s.config ∧ t.status = s.status ∧ t.mem = s.mem ∧
      t.sfc = s.sfc - (9 + s.wordAt (popAddr (s.get .sp) 8)) * cntAmount s.config.cntStep ∧
      ∀ r, t.get r = if r = .fp then v else if r = .sp then s.get .sp + 18 + 2 * s.wordAt (popAddr (s.get .sp) 8)
        else (s.poppedInto savedRegs.reverse).get r := by
  have h8 : PopsFit s.mem.size (s.get .sp) 8 := fun k hk => h k (by omega)
  have h9 := h 8 (by omega)
  have hn : PopsFit s.mem.size (s.get .sp + 18) (s.wordAt (popAddr (s.get .sp) 8)).toNat := popsFit_drop 9 h
  have hsp : (s.poppedInto savedRegs.reverse).get .sp = s.get .sp + 16 := by rw [poppedInto_savedRegs_get]
  have haddr : s.get .sp + 16 + 2 = popAddr (s.get .sp) 8 := by rw [popAddr]; bv_omega
  have hword : (s.poppedInto savedRegs.reverse).wordAt (popAddr (s.get .sp) 8) = s.wordAt (popAddr (s.get .sp) 8) := by
    rw [State.wordAt, poppedInto_mem]; rfl
  have hc := poppedInto_config s savedRegs.reverse
  have hs := poppedInto_status s savedRegs.reverse
  have hm := poppedInto_mem s savedRegs.reverse
  have hf := poppedInto_sfc s savedRegs.reverse
  have hpop := popRegs_of_fit ip0 s savedRegs.reverse (by decide) h8
  generalize s.poppedInto savedRegs.reverse = t at *
  generalize s.wordAt (popAddr (s.get .sp) 8) = n at *
  have hp : pop ip0 t = .ok (n, t.popped) := by
    rw [pop_of_inBounds _ _ (by rw [hsp, haddr, hm]; exact h9), hsp, haddr, hword]
  have hsp' : t.popped.get .sp = s.get .sp + 18 := by rw [State.popped_get, if_pos rfl, hsp]; bv_omega
  have hd := discard_of_fit ip0 t.popped n.toNat (by rw [hsp', State.popped_mem, hm]; exact hn)
  have two : BitVec.ofNat 16 (2 * n.toNat) = 2 * n := by bv_omega
  have heq : popStateTail ip0 v s = .ok (((t.popped.set .sp (t.popped.get .sp + BitVec.ofNat 16 (2 * n.toNat))).setSfc
      (t.popped.sfc - BitVec.ofNat 16 n.toNat * cntAmount t.popped.config.cntStep)).set .fp v) := by
    rw [popStateTail, hpop, ok_bind, hp, ok_bind]
    show (discard ip0 n.toNat t.popped >>= fun u => Except.ok (u.set .fp v)) = _
    rw [hd, ok_bind]
  refine ⟨_, heq, by simpa using hc, by simpa using hs, by simpa using hm, ?_, fun r => ?_⟩
  · rw [State.set_sfc, State.setSfc_sfc, State.popped_sfc, State.popped_config, hf, hc]
    rw [BitVec.ofNat_toNat, BitVec.setWidth_eq, show BitVec.ofNat 16 savedRegs.reverse.length = 8 from rfl]
    ring
  · rw [State.set_get, State.setSfc_get, State.set_get, hsp', two]
    by_cases h1 : r = .fp
    · simp [h1]
    · by_cases h2 : r = .sp <;> simp [h1, h2]

/-- The call epilogue, every read inside the capacity (R182). -/
theorem popState_of_fit (h : PopsFit s.mem.size (s.get .fp) (11 + (s.wordAt (popAddr (s.get .fp) 10)).toNat)) :
    popState ip0 s = .ok s.returned := by
  have h0 := h 0 (by omega)
  have h1 := h 1 (by omega)
  have hrest : PopsFit s.mem.size (s.get .fp + 4) (9 + (s.wordAt (popAddr (s.get .fp) 10)).toNat) :=
    popsFit_drop 2 (by rwa [← Nat.add_assoc])
  have addr (k : Nat) : popAddr (s.get .fp + 4) k = popAddr (s.get .fp) (k + 2) := by
    rw [popAddr_succ, popAddr_succ]; congr 1; bv_omega
  have eq : popState ip0 s = pop ip0 (s.set .sp (s.get .fp)) >>= fun p => pop ip0 (p.2.setSfc p.1) >>= fun q =>
      popStateTail ip0 (s.get .fp + p.1) (q.2.set .ip q.1) := rfl
  rw [eq, pop_of_inBounds _ _ (by simpa [popAddr] using h0), ok_bind]
  simp only [State.set_get, if_true, State.set_wordAt]
  rw [pop_of_inBounds _ _ (by simpa [popAddr, BitVec.add_assoc] using h1), ok_bind]
  simp only [State.setSfc_get, State.popped_get, State.set_get, if_true, State.setSfc_wordAt, State.popped_wordAt,
    State.set_wordAt]
  have e4 : s.get .fp + 2 + 2 = s.get .fp + 4 := by bv_omega
  rw [e4, show s.get .fp + 2 = popAddr (s.get .fp) 0 from rfl, show s.get .fp + 4 = popAddr (s.get .fp) 1 from rfl]
  generalize ht : (((s.set .sp (s.get .fp)).popped.setSfc (s.wordAt (popAddr (s.get .fp) 0))).popped.set .ip
    (s.wordAt (popAddr (s.get .fp) 1))) = t
  have t_get (r : Reg) : t.get r = if r = .ip then s.wordAt (popAddr (s.get .fp) 1) else
      if r = .sp then s.get .fp + 4 else s.get r := by
    rw [← ht]
    cases r <;> simp [BitVec.add_assoc]
  have t_mem : t.mem = s.mem := by rw [← ht]; simp
  have t_word (a : Word) : t.wordAt a = s.wordAt a := by rw [State.wordAt, t_mem]; rfl
  have t_config : t.config = s.config := by rw [← ht]; simp
  have t_status : t.status = s.status := by rw [← ht]; simp
  have t_sfc : t.sfc = s.wordAt (popAddr (s.get .fp) 0) - cntAmount s.config.cntStep := by rw [← ht]; simp
  have t_sp : t.get .sp = s.get .fp + 4 := by rw [t_get]; simp
  obtain ⟨u, hu, uc, us, um, uf, ug⟩ := popStateTail_of_fit ip0 (s.get .fp + s.wordAt (popAddr (s.get .fp) 0)) t
    (by rw [t_sp, t_mem, t_word, addr]; exact hrest)
  rw [hu]
  refine congrArg Except.ok (State.eq_of_get_eq (fun r => ?_) (uc.trans t_config) ?_ (us.trans t_status) (um.trans t_mem))
  · rw [ug, poppedInto_savedRegs_get, State.returned_get, t_sp, addr]
    cases r <;> simp only [t_get, t_word, addr, reduceCtorEq, if_true, if_false]
    ring
  · rw [uf, t_sfc, t_sp, t_word, t_config, addr, State.returned_sfc]
    ring

end Sys2Proof.Machine
end

