-- ==== Sys2Proof/Laws/Sound.lean ====
section
/-! SUPPORT. What every shared operation keeps, whether it answers a state or a fault: the parameters, the status, the
capacity and the canonical form of the Memory; and what every fault it raises says (R50, R211, R214). -/

namespace Sys2Proof.Machine

/-- `t` is reached from `s` by effects that an instruction may have: parameters, status and capacity are the same, and a
canonical Memory stays canonical. -/
structure Keeps (s t : State) : Prop where
  config : t.config = s.config
  status : t.status = s.status
  size : t.mem.size = s.mem.size
  wf : s.mem.wf → t.mem.wf

/-- `f` is the fault of an access outside the capacity, raised in a state reached from `s` (R211, R214). -/
def OutOfBoundsFault (ip0 : Word) (s : State) (f : Fault) : Prop :=
  ∃ t addr size kind fetch, Keeps s t ∧ f = t.raise (.outOfBounds addr size kind fetch ip0) ∧
    s.mem.size < addr.toNat + size.bytes

/-- What an operation started in `s` may answer. -/
def Sound {α : Type} (ip0 : Word) (s : State) (state : α → State) : Except Fault α → Prop
  | .ok a => Keeps s (state a)
  | .error f => OutOfBoundsFault ip0 s f

variable {ip0 : Word} {s t u : State}

theorem Keeps.refl (s : State) : Keeps s s := ⟨rfl, rfl, rfl, id⟩

theorem Keeps.trans (h : Keeps s t) (h' : Keeps t u) : Keeps s u :=
  ⟨h'.config.trans h.config, h'.status.trans h.status, h'.size.trans h.size, fun w => h'.wf (h.wf w)⟩

theorem Keeps.set (h : Keeps s t) (r : Reg) (v : Word) : Keeps s (t.set r v) := ⟨h.config, h.status, h.size, h.wf⟩
theorem Keeps.setSfc (h : Keeps s t) (v : Word) : Keeps s (t.setSfc v) := ⟨h.config, h.status, h.size, h.wf⟩
theorem Keeps.advance (h : Keeps s t) (n : Nat) : Keeps s (t.advance n) := h.set _ _

theorem OutOfBoundsFault.of_keeps {f : Fault} (h : Keeps s t) (hf : OutOfBoundsFault ip0 t f) :
    OutOfBoundsFault ip0 s f := by
  obtain ⟨u, addr, size, kind, fetch, hu, rfl, hb⟩ := hf
  exact ⟨u, addr, size, kind, fetch, h.trans hu, rfl, by rw [← h.size]; exact hb⟩

/-- An operation followed by another, each sound where it starts, is sound. -/
theorem Sound.bind {α β : Type} {sa : α → State} {sb : β → State} {x : Except Fault α} {k : α → Except Fault β}
    (hx : Sound ip0 s sa x) (hk : ∀ a, x = .ok a → Sound ip0 (sa a) sb (k a)) : Sound ip0 s sb (x >>= k) := by
  cases x with
  | error f => exact hx
  | ok a =>
    have h := hk a rfl
    show Sound ip0 s sb (k a)
    cases hka : k a with
    | error f => rw [hka] at h; exact OutOfBoundsFault.of_keeps hx h
    | ok b => rw [hka] at h; exact Keeps.trans hx h

/-- A sound operation started after some effects is sound from before them. -/
theorem Sound.of_keeps {α : Type} {sa : α → State} {x : Except Fault α} (h : Keeps s t) (hx : Sound ip0 t sa x) :
    Sound ip0 s sa x := by
  cases x with
  | error f => exact OutOfBoundsFault.of_keeps h hx
  | ok a => exact Keeps.trans h hx

theorem readByte_sound (fetch : Bool) (ip0 addr : Word) (s : State) : Sound ip0 s (fun _ => s) (readByte fetch ip0 addr s) := by
  by_cases h : addr.toNat < s.mem.size
  · rw [readByte_of_inBounds _ _ _ _ h]; exact Keeps.refl s
  · rw [readByte_of_outOfBounds _ _ _ _ (by omega)]
    exact ⟨s, addr, .byte, .read, fetch, Keeps.refl s, rfl, by simp only [AccessSize.bytes]; omega⟩

theorem readWord_sound (fetch : Bool) (ip0 addr : Word) (s : State) : Sound ip0 s (fun _ => s) (readWord fetch ip0 addr s) := by
  by_cases h : addr.toNat + 2 ≤ s.mem.size
  · rw [readWord_of_inBounds _ _ _ _ h]; exact Keeps.refl s
  · rw [readWord_of_outOfBounds _ _ _ _ (by omega)]
    exact ⟨s, addr, .word, .read, fetch, Keeps.refl s, rfl, by simp only [AccessSize.bytes]; omega⟩

theorem writeWord_sound (ip0 addr v : Word) (s : State) : Sound ip0 s id (writeWord ip0 addr v s) := by
  by_cases h : addr.toNat + 2 ≤ s.mem.size
  · rw [writeWord_of_inBounds _ _ _ _ h]
    exact ⟨rfl, rfl, rfl, fun w => Memory.setWord_wf _ _ _ w h⟩
  · rw [writeWord_of_outOfBounds _ _ _ _ (by omega)]
    exact ⟨s, addr, .word, .write, false, Keeps.refl s, rfl, by simp only [AccessSize.bytes]; omega⟩

theorem push_sound (ip0 v : Word) (s : State) : Sound ip0 s id (push ip0 v s) := by
  rw [push]
  exact (writeWord_sound ip0 _ v s).bind fun t _ => ((Keeps.refl t).set _ _).setSfc _

theorem pop_sound (ip0 : Word) (s : State) : Sound ip0 s Prod.snd (pop ip0 s) := by
  rw [pop]
  refine Sound.of_keeps ((Keeps.refl s).set .sp (s.get .sp + 2)) (Sound.bind (readWord_sound false ip0 _ _) fun w _ => ?_)
  exact (Keeps.refl _).setSfc _

theorem pushWords_sound (ip0 : Word) (vs : List Word) (s : State) : Sound ip0 s id (pushWords ip0 vs s) := by
  induction vs generalizing s with
  | nil => exact Keeps.refl s
  | cons v vs ih => exact (push_sound ip0 v s).bind fun t _ => ih t

theorem pushState_sound (ip0 : Word) (s : State) : Sound ip0 s id (pushState ip0 s) := by
  rw [pushState_eq_pushWords]
  exact (pushWords_sound ip0 _ s).bind fun t _ => ((Keeps.refl t).set _ _).setSfc _

theorem popRegs_sound (ip0 : Word) (rs : List Reg) (s : State) : Sound ip0 s id (popRegs ip0 rs s) := by
  induction rs generalizing s with
  | nil => exact Keeps.refl s
  | cons r rs ih => exact (pop_sound ip0 s).bind fun p _ => (ih (p.2.set r p.1)).of_keeps ((Keeps.refl p.2).set _ _)

theorem discard_sound (ip0 : Word) (n : Nat) (s : State) : Sound ip0 s id (discard ip0 n s) := by
  induction n generalizing s with
  | zero => exact Keeps.refl s
  | succ n ih => exact (pop_sound ip0 s).bind fun p _ => ih p.2

theorem popState_sound (ip0 : Word) (s : State) : Sound ip0 s id (popState ip0 s) := by
  rw [popState]
  refine Sound.of_keeps ((Keeps.refl s).set _ _) ((pop_sound ip0 _).bind fun p1 _ => ?_)
  refine Sound.of_keeps ((Keeps.refl _).setSfc _) ((pop_sound ip0 _).bind fun p2 _ => ?_)
  refine Sound.of_keeps ((Keeps.refl _).set _ _) ((popRegs_sound ip0 _ _).bind fun t _ => ?_)
  refine (pop_sound ip0 t).bind fun p3 _ => ?_
  refine (discard_sound ip0 _ _).bind fun u _ => ?_
  exact (Keeps.refl u).set _ _

/-- Neither a pop nor what the epilogue makes of pops changes the Memory (R161). -/
theorem pop_mem {p : Word × State} (h : pop ip0 s = .ok p) : p.2.mem = s.mem := by
  by_cases hb : (s.get .sp + 2).toNat + 2 ≤ s.mem.size
  · rw [pop_of_inBounds _ _ hb] at h; cases h; rfl
  · rw [pop_of_outOfBounds _ _ (by omega)] at h; cases h

/-! ## Fetch -/

theorem fetchByte_sound (ip0 : Word) (s : State) : Sound ip0 s Prod.snd (fetchByte ip0 s) := by
  rw [fetchByte]
  exact (readByte_sound true ip0 _ s).bind fun b _ => (Keeps.refl s).advance 1

theorem fetchWord_sound (ip0 : Word) (s : State) : Sound ip0 s Prod.snd (fetchWord ip0 s) := by
  rw [fetchWord]
  exact (readWord_sound true ip0 _ s).bind fun b _ => (Keeps.refl s).advance 2

theorem fetchOperand_sound (ip0 : Word) (k : OperandKind) (s : State) : Sound ip0 s Prod.snd (fetchOperand ip0 k s) := by
  cases k
  · exact (fetchByte_sound ip0 s).bind fun p _ => Keeps.refl p.2
  · exact (fetchWord_sound ip0 s).bind fun p _ => Keeps.refl p.2
  · exact (fetchWord_sound ip0 s).bind fun p _ => Keeps.refl p.2
  · exact (fetchByte_sound ip0 s).bind fun p _ => Keeps.refl p.2

theorem fetchOperands_sound (ip0 : Word) (ks : List OperandKind) (s : State) :
    Sound ip0 s Prod.snd (fetchOperands ip0 ks s) := by
  induction ks generalizing s with
  | nil => exact Keeps.refl s
  | cons k ks ih =>
    exact (fetchOperand_sound ip0 k s).bind fun p _ => (ih p.2).bind fun q _ => Keeps.refl q.2

theorem fetchInstr_sound (s : State) : Sound (s.get .ip) s Prod.snd (fetchInstr s) := by
  rw [fetchInstr]
  exact (fetchByte_sound _ s).bind fun p _ => (fetchOperands_sound _ _ p.2).bind fun q _ => Keeps.refl q.2

end Sys2Proof.Machine
end

