-- ==== Sys2Proof/Laws/Fetch.lean ====
section
/-! SUPPORT. What the fetch of an instruction answers (R80, R83 to R86). -/

namespace Sys2Proof.Machine

variable (ip0 : Word) (s : State)

theorem fetchByte_of_inBounds (h : (s.get .ip).toNat < s.mem.size) :
    fetchByte ip0 s = .ok (s.byteAt (s.get .ip).toNat, s.advance 1) := by
  rw [fetchByte, readByte_of_inBounds _ _ _ _ h, ok_bind]; rfl

theorem fetchByte_of_outOfBounds (h : s.mem.size ≤ (s.get .ip).toNat) :
    fetchByte ip0 s = .error (s.raise (.outOfBounds (s.get .ip) .byte .read true ip0)) := by
  rw [fetchByte, readByte_of_outOfBounds _ _ _ _ h, error_bind]

theorem fetchWord_of_inBounds (h : (s.get .ip).toNat + 2 ≤ s.mem.size) :
    fetchWord ip0 s = .ok (s.wordAt (s.get .ip), s.advance 2) := by
  rw [fetchWord, readWord_of_inBounds _ _ _ _ h, ok_bind]; rfl

theorem fetchWord_of_outOfBounds (h : s.mem.size < (s.get .ip).toNat + 2) :
    fetchWord ip0 s = .error (s.raise (.outOfBounds (s.get .ip) .word .read true ip0)) := by
  rw [fetchWord, readWord_of_outOfBounds _ _ _ _ h, error_bind]

/-- The bytes of Memory from an address on, each operand's bytes at consecutive addresses. -/
def operandBytes (s : State) : Word → List OperandKind → List Byte
  | _, [] => []
  | a, k :: ks => (List.range k.size).map (fun j => s.byteAt (a.toNat + j)) ++ operandBytes s (a + BitVec.ofNat 16 k.size) ks

/-- An operand whose access fits is fetched (R83, R84). -/
theorem fetchOperand_of_fit (k : OperandKind) (h : (s.get .ip).toNat + k.size ≤ s.mem.size) :
    fetchOperand ip0 k s =
      .ok ((List.range k.size).map (fun j => s.byteAt ((s.get .ip).toNat + j)), s.advance k.size) := by
  have byte (h : (s.get .ip).toNat + 1 ≤ s.mem.size) : (fetchByte ip0 s >>= fun p => Except.ok ([p.1], p.2)) =
      .ok ([s.byteAt (s.get .ip).toNat], s.advance 1) := by rw [fetchByte_of_inBounds _ _ (by omega)]; rfl
  have word (h : (s.get .ip).toNat + 2 ≤ s.mem.size) :
      (fetchWord ip0 s >>= fun p => Except.ok ([hiByte p.1, loByte p.1], p.2)) =
      .ok ([s.byteAt (s.get .ip).toNat, s.byteAt ((s.get .ip).toNat + 1)], s.advance 2) := by
    rw [fetchWord_of_inBounds _ _ h]
    simp [State.wordAt, Memory.wordAt, State.byteAt]
  cases k
  · exact byte h
  · exact word h
  · exact word h
  · exact byte h

/-- Operands whose accesses all fit are fetched. -/
theorem fetchOperands_of_fit (ks : List OperandKind) (h : OperandsFit s.mem.size (s.get .ip) ks) :
    fetchOperands ip0 ks s =
      .ok (operandBytes s (s.get .ip) ks, s.advance (ks.map OperandKind.size).sum) := by
  induction ks generalizing s with
  | nil =>
    simp only [fetchOperands, operandBytes, List.map_nil, List.sum_nil]
    refine congrArg (fun t => Except.ok ([], t)) (State.eq_of_get_eq (fun r => ?_) rfl rfl rfl rfl)
    by_cases hr : r = .ip <;> simp [hr]
  | cons k ks ih =>
    rw [fetchOperands, fetchOperand_of_fit _ _ _ h.1, ok_bind]
    simp only
    rw [ih (s.advance k.size) (by simpa using h.2), ok_bind, State.advance_advance]
    have : ∀ a, operandBytes (s.advance k.size) a ks = operandBytes s a ks := by
      clear ih h
      induction ks with
      | nil => intro a; rfl
      | cons k' ks ih => intro a; simp only [operandBytes, State.advance_byteAt, ih]
    simp only [this, operandBytes, State.advance_get, if_true, List.map_cons, List.sum_cons]
    rfl

/-- An instruction whose fetches all fit is fetched, and only ip moves (R80, R90). -/
theorem fetchInstr_of_fit (hop : (s.get .ip).toNat < s.mem.size)
    (h : OperandsFit s.mem.size (s.get .ip + 1) (operandsOf (s.byteAt (s.get .ip).toNat))) :
    fetchInstr s = .ok (s.byteAt (s.get .ip).toNat ::
        operandBytes s (s.get .ip + 1) (operandsOf (s.byteAt (s.get .ip).toNat)),
      s.advance (lengthOf (s.byteAt (s.get .ip).toNat))) := by
  rw [fetchInstr, fetchByte_of_inBounds _ _ hop, ok_bind]
  simp only
  rw [fetchOperands_of_fit _ _ _ (by simpa using h), ok_bind, State.advance_advance]
  have : ∀ ks a, operandBytes (s.advance 1) a ks = operandBytes s a ks := by
    intro ks
    induction ks with
    | nil => intro a; rfl
    | cons k' ks ih => intro a; simp only [operandBytes, State.advance_byteAt, ih]
  simp only [this, State.advance_get, if_true]
  rfl

/-- The operand bytes of an opcode byte are as many as its length says. -/
theorem operandBytes_length (a : Word) (ks : List OperandKind) :
    (operandBytes s a ks).length = (ks.map OperandKind.size).sum := by
  induction ks generalizing a with
  | nil => rfl
  | cons k ks ih => simp [operandBytes, ih]

/-- Every fetched operand has the size its kind fixes (R81). -/
theorem fetchOperand_length {k : OperandKind} {p : List Byte × State} (h : fetchOperand ip0 k s = .ok p) :
    p.1.length = k.size := by
  cases k <;> simp only [fetchOperand] at h
  · cases hb : fetchByte ip0 s <;> rw [hb] at h <;> cases h; rfl
  · cases hb : fetchWord ip0 s <;> rw [hb] at h <;> cases h; rfl
  · cases hb : fetchWord ip0 s <;> rw [hb] at h <;> cases h; rfl
  · cases hb : fetchByte ip0 s <;> rw [hb] at h <;> cases h; rfl

/-- Fetched operands have the sizes their kinds fix (R81). -/
theorem fetchOperands_length {ks : List OperandKind} {p : List Byte × State} (h : fetchOperands ip0 ks s = .ok p) :
    p.1.length = (ks.map OperandKind.size).sum := by
  induction ks generalizing s p with
  | nil => cases h; rfl
  | cons k ks ih =>
    rw [fetchOperands] at h
    cases hb : fetchOperand ip0 k s with
    | error f => rw [hb] at h; cases h
    | ok q =>
      rw [hb, ok_bind] at h
      cases hr : fetchOperands ip0 ks q.2 with
      | error f => simp only [hr, error_bind] at h; cases h
      | ok r =>
        simp only [hr, ok_bind] at h
        cases h
        simp [fetchOperand_length ip0 s hb, ih _ hr]

/-- Every fetched instruction has the length its opcode byte fixes (R90). -/
theorem fetchInstr_length {p : List Byte × State} (h : fetchInstr s = .ok p) :
    ∃ op rest, p.1 = op :: rest ∧ rest.length = ((operandsOf op).map OperandKind.size).sum := by
  rw [fetchInstr] at h
  cases hb : fetchByte (s.get .ip) s with
  | error f => simp only [hb, error_bind] at h; cases h
  | ok q =>
    simp only [hb, ok_bind] at h
    cases hr : fetchOperands (s.get .ip) (operandsOf q.1) q.2 with
    | error f => simp only [hr, error_bind] at h; cases h
    | ok r =>
      simp only [hr, ok_bind] at h
      cases h
      exact ⟨q.1, r.1, rfl, fetchOperands_length _ _ hr⟩

end Sys2Proof.Machine
end

