-- ==== Sys2Proof/Laws/Exec.lean ====
section
/-! SUPPORT. What `exec` answers, instruction by instruction, in closed form; what every instruction keeps; and what a step
can do. -/

namespace Sys2Proof.Machine

variable (s : State) (lit addr target : Word) (r : Reg)

@[simp] theorem source_advance (n : Nat) : (s.advance n).source r = sourceValue s n r := by
  simp [State.source, sourceValue]

/-! ## Closed forms -/

theorem exec_movRegMem_of_inBounds (h : addr.toNat + 2 ≤ s.mem.size) :
    exec (.movRegMem r addr) s = .next ((s.advance 4).setMem (s.mem.setWord addr.toNat (sourceValue s 4 r))) := by
  simp only [exec, execMovRegMem, writeWord_of_inBounds (s.get .ip) addr _ (s.advance 4) h, settle_ok, source_advance,
    State.advance_mem]

theorem exec_movRegMem_of_outOfBounds (h : s.mem.size < addr.toNat + 2) :
    exec (.movRegMem r addr) s = .fault ((s.advance 4).raise (.outOfBounds addr .word .write false (s.get .ip))) := by
  simp only [exec, execMovRegMem, writeWord_of_outOfBounds (s.get .ip) addr _ (s.advance 4) h, settle_error]

theorem exec_movMemReg_of_inBounds (h : addr.toNat + 2 ≤ s.mem.size) :
    exec (.movMemReg addr r) s = .next ((s.advance 4).set r (s.wordAt addr)) := by
  simp only [exec, execMovMemReg, readWord_of_inBounds false (s.get .ip) addr (s.advance 4) h, ok_bind, pure_eq_ok,
    settle_ok, State.dest, State.advance_wordAt]

theorem exec_movMemReg_of_outOfBounds (h : s.mem.size < addr.toNat + 2) :
    exec (.movMemReg addr r) s = .fault ((s.advance 4).raise (.outOfBounds addr .word .read false (s.get .ip))) := by
  simp only [exec, execMovMemReg, readWord_of_outOfBounds false (s.get .ip) addr (s.advance 4) h, error_bind, settle_error]

theorem exec_jmpNotEq (t : Byte) : exec (.jmpNotEq lit t) s =
    .next (if lit = s.get .acc then s.advance 4 else (s.advance 4).set .ip (zeroExtend16 t)) := by
  simp only [exec, execJmpNotEq, jumpTaken, shortTarget, State.advance_get, reduceCtorEq, if_false]
  by_cases h : lit = s.get .acc <;> simp [h]

theorem exec_pshLit_of_inBounds (h : (s.get .sp).toNat + 2 ≤ s.mem.size) :
    exec (.pshLit lit) s = .next ((s.advance 3).pushed lit) := by
  simp only [exec, execPshLit, push_of_inBounds (s.get .ip) lit (s.advance 3) (by simpa using h), settle_ok]

theorem exec_pshLit_of_outOfBounds (h : s.mem.size < (s.get .sp).toNat + 2) :
    exec (.pshLit lit) s = .fault ((s.advance 3).raise (.outOfBounds (s.get .sp) .word .write false (s.get .ip))) := by
  simp only [exec, execPshLit, push_of_outOfBounds (s.get .ip) lit (s.advance 3) (by simpa using h), settle_error,
    State.advance_get, reduceCtorEq, if_false]

theorem exec_pshReg_of_inBounds (h : (s.get .sp).toNat + 2 ≤ s.mem.size) :
    exec (.pshReg r) s = .next ((s.advance 2).pushed (sourceValue s 2 r)) := by
  simp only [exec, execPshReg, source_advance, push_of_inBounds (s.get .ip) _ (s.advance 2) (by simpa using h), settle_ok]

theorem exec_pshReg_of_outOfBounds (h : s.mem.size < (s.get .sp).toNat + 2) :
    exec (.pshReg r) s = .fault ((s.advance 2).raise (.outOfBounds (s.get .sp) .word .write false (s.get .ip))) := by
  simp only [exec, execPshReg, push_of_outOfBounds (s.get .ip) _ (s.advance 2) (by simpa using h), settle_error,
    State.advance_get, reduceCtorEq, if_false]

theorem exec_popReg_of_inBounds (h : (s.get .sp + 2).toNat + 2 ≤ s.mem.size) :
    exec (.popReg r) s = .next ((s.advance 2).popped.set r (s.wordAt (s.get .sp + 2))) := by
  simp only [exec, execPopReg, pop_of_inBounds (s.get .ip) (s.advance 2) (by simpa using h), ok_bind, pure_eq_ok, settle_ok,
    State.dest, State.advance_get, State.advance_wordAt, reduceCtorEq, if_false]

theorem exec_popReg_of_outOfBounds (h : s.mem.size < (s.get .sp + 2).toNat + 2) :
    exec (.popReg r) s = .fault (((s.advance 2).set .sp (s.get .sp + 2)).raise
      (.outOfBounds (s.get .sp + 2) .word .read false (s.get .ip))) := by
  simp only [exec, execPopReg, pop_of_outOfBounds (s.get .ip) (s.advance 2) (by simpa using h), error_bind, settle_error,
    State.advance_get, reduceCtorEq, if_false]

theorem exec_calLit_of_fit (h : PushesFit s.mem.size (s.get .sp) 10) :
    exec (.calLit target) s = .next ((s.advance 3).entered.set .ip target) := by
  have e : (s.advance 3).get .sp = s.get .sp := by simp
  simp only [exec, execCalLit, pushState_of_fit (s.get .ip) (s.advance 3) (by rw [e]; exact h), ok_bind, pure_eq_ok,
    settle_ok]

theorem exec_calReg_of_fit (h : PushesFit s.mem.size (s.get .sp) 10) :
    exec (.calReg r) s = .next ((s.advance 2).entered.set .ip (sourceValue s 2 r)) := by
  have e : (s.advance 2).get .sp = s.get .sp := by simp
  simp only [exec, execCalReg, source_advance, pushState_of_fit (s.get .ip) (s.advance 2) (by rw [e]; exact h), ok_bind,
    pure_eq_ok, settle_ok]

theorem exec_ret_of_fit (h : PopsFit s.mem.size (s.get .fp) (11 + (s.wordAt (popAddr (s.get .fp) 10)).toNat)) :
    exec .ret s = .next (s.advance 1).returned := by
  have e : (s.advance 1).get .fp = s.get .fp := by simp
  simp only [exec, execRet, popState_of_fit (s.get .ip) (s.advance 1) (by rw [e]; exact h), settle_ok]

/-- The frame a call instruction stores is the prologue's ten words. -/
theorem frameWords_advance (n : Nat) : frameWords (s.advance n) = callFrame s n := by
  simp [frameWords, callFrame, savedRegs]

theorem exec_unassigned_nop (op : Byte) (h : s.config.policy = .nop) : exec (.unassigned op) s = .next (s.advance 1) := by
  simp only [exec, execUnassigned, State.advance_config, h]

theorem exec_unassigned_fault (op : Byte) (h : s.config.policy = .fault) :
    exec (.unassigned op) s = .fault ((s.advance 1).raise (.unknownOpcode op (s.get .ip))) := by
  simp only [exec, execUnassigned, State.advance_config, h]

/-! ## What every instruction keeps -/

/-- What an instruction started in `s` may answer, but for an unassigned byte under the policy `fault`. -/
def SoundOutcome (s : State) : Host.Outcome State Fault Refusal → Prop
  | .next t => Keeps s t
  | .fault f => OutOfBoundsFault (s.get .ip) s f
  | .refused _ => False

theorem settle_sound {x : Except Fault State} (h : Sound (s.get .ip) s id x) : SoundOutcome s (settle x) := by
  cases x <;> exact h

/-- Every instruction keeps what it must, or faults as R211 says; the one exception is `unassigned` under `fault`. -/
theorem exec_sound (i : Instr) :
    SoundOutcome s (exec i s) ∨ ∃ op, i = .unassigned op ∧ s.config.policy = .fault := by
  have adv (n : Nat) : Keeps s (s.advance n) := (Keeps.refl s).advance n
  cases i with
  | movLitReg => exact .inl ((adv 4).set _ _)
  | movRegReg => exact .inl ((adv 3).set _ _)
  | movRegMem => exact .inl (settle_sound s ((writeWord_sound _ _ _ _).of_keeps (adv 4)))
  | movMemReg =>
    exact .inl (settle_sound s (Sound.of_keeps (adv 4)
      ((readWord_sound _ _ _ _).bind fun _ _ => (Keeps.refl (s.advance 4)).set _ _)))
  | addRegReg => exact .inl ((adv 3).set _ _)
  | jmpNotEq lit t =>
    rw [exec_jmpNotEq]
    left
    split
    · exact adv 4
    · exact (adv 4).set _ _
  | pshLit => exact .inl (settle_sound s ((push_sound _ _ _).of_keeps (adv 3)))
  | pshReg => exact .inl (settle_sound s ((push_sound _ _ _).of_keeps (adv 2)))
  | popReg =>
    exact .inl (settle_sound s (Sound.of_keeps (adv 2) ((pop_sound _ _).bind fun p _ => (Keeps.refl p.2).set _ _)))
  | calLit =>
    exact .inl (settle_sound s (Sound.of_keeps (adv 3) ((pushState_sound _ _).bind fun t _ => (Keeps.refl t).set _ _)))
  | calReg =>
    exact .inl (settle_sound s (Sound.of_keeps (adv 2) ((pushState_sound _ _).bind fun t _ => (Keeps.refl t).set _ _)))
  | ret => exact .inl (settle_sound s ((popState_sound _ _).of_keeps (adv 1)))
  | unassigned op =>
    cases hp : s.config.policy with
    | fault => exact .inr ⟨op, rfl, rfl⟩
    | nop => left; rw [exec_unassigned_nop s op hp]; exact adv 1

/-! ## What a step can do -/

/-- Fetched bytes decode, with none left over: the fetch takes exactly the operands of its opcode byte (R90). -/
theorem decode_of_fetchInstr {p : List Byte × State} (h : fetchInstr s = .ok p) : ∃ i, decode p.1 = .ok (i, []) := by
  obtain ⟨op, ops, he, hl⟩ := fetchInstr_length s h
  rw [he]
  cases ho : Opcode.ofByte op with
  | none =>
    simp only [operandsOf, ho, List.map_nil, List.sum_nil, List.length_eq_zero_iff] at hl
    exact ⟨.unassigned op, by simp only [decode, ho, hl]⟩
  | some o =>
    obtain rfl := (Opcode.ofByte_eq_some_iff _ _).mp ho
    simp only [operandsOf, ho] at hl
    rw [decode_byte_cons]
    cases o <;> simp [Opcode.operands, OperandKind.size] at hl
    all_goals
      rcases ops with _ | ⟨a, _ | ⟨b, _ | ⟨c, _ | ⟨d, ops⟩⟩⟩⟩ <;> simp at hl
      exact ⟨_, rfl⟩

/-- A step of a RUNNING engine is a fetch fault or the meaning of the fetched instruction (R87). -/
theorem step_of_running (hr : s.status = .running) :
    (∃ f, fetchInstr s = .error f ∧ step s = .fault f) ∨
    ∃ p i, fetchInstr s = .ok p ∧ decode p.1 = .ok (i, []) ∧ step s = exec i s := by
  cases hf : fetchInstr s with
  | error f => exact .inl ⟨f, rfl, by simp only [step, cycle, hr, hf]⟩
  | ok p =>
    obtain ⟨i, hi⟩ := decode_of_fetchInstr s hf
    exact .inr ⟨p, i, rfl, hi, by simp only [step, cycle, hr, hf, hi]⟩

/-- A step of a FAULTED engine reports its record and its state again (R97). -/
theorem step_of_faulted {rec : FaultRecord} (hr : s.status = .faulted rec) : step s = .fault (Fault.ofRecord rec s) := by
  simp only [step, cycle, hr]

end Sys2Proof.Machine
end

