-- ==== Sys2Proof/Laws/PerInstr.lean ====
section
/-! SUPPORT. A statement about every instruction as syntax, one lemma per constructor (R80, R82, R90). -/

namespace Sys2Proof.Laws.EncodeLength

/-- Every format is at most four bytes long (R82). -/
theorem length_le_four (i : Instr) : i.length ≤ 4 := by
  cases i <;> simp [Instr.length, Instr.opcode, Opcode.operands, OperandKind.size]

/-- The encoding takes as many bytes as the instruction's format says, at most four (R82, R90). -/
def Statement (i : Instr) : Prop := (encode i).length = i.length ∧ i.length ≤ 4

theorem movLitReg (lit : Word) (dst : Reg) : Statement (.movLitReg lit dst) := ⟨rfl, length_le_four _⟩
theorem movRegReg (src dst : Reg) : Statement (.movRegReg src dst) := ⟨rfl, length_le_four _⟩
theorem movRegMem (src : Reg) (addr : Word) : Statement (.movRegMem src addr) := ⟨rfl, length_le_four _⟩
theorem movMemReg (addr : Word) (dst : Reg) : Statement (.movMemReg addr dst) := ⟨rfl, length_le_four _⟩
theorem addRegReg (src1 src2 : Reg) : Statement (.addRegReg src1 src2) := ⟨rfl, length_le_four _⟩
theorem jmpNotEq (lit : Word) (target : Byte) : Statement (.jmpNotEq lit target) := ⟨rfl, length_le_four _⟩
theorem pshLit (lit : Word) : Statement (.pshLit lit) := ⟨rfl, length_le_four _⟩
theorem pshReg (src : Reg) : Statement (.pshReg src) := ⟨rfl, length_le_four _⟩
theorem popReg (dst : Reg) : Statement (.popReg dst) := ⟨rfl, length_le_four _⟩
theorem calLit (target : Word) : Statement (.calLit target) := ⟨rfl, length_le_four _⟩
theorem calReg (src : Reg) : Statement (.calReg src) := ⟨rfl, length_le_four _⟩
theorem ret : Statement .ret := ⟨rfl, length_le_four _⟩
theorem unassigned (op : Byte) : Statement (.unassigned op) := ⟨rfl, length_le_four _⟩

end Sys2Proof.Laws.EncodeLength
end

