-- ==== Sys2Proof/Laws/Ret.lean ====
section
/-! SUPPORT. What the call epilogue answers where a pop leaves the capacity (R182, R214). -/

namespace Sys2Proof.Machine

variable (ip0 v : Word) (s : State)

/-- Discarding words where the `k`-th read is the first outside the capacity: the fault of that pop, after the earlier ones. -/
theorem discard_of_unfit (n k : Nat) (hk : k < n) (h : PopsFit s.mem.size (s.get .sp) k)
    (hbad : s.mem.size < (popAddr (s.get .sp) k).toNat + 2) :
    discard ip0 n s = .error (((s.set .sp (popAddr (s.get .sp) k)).setSfc
      (s.sfc - BitVec.ofNat 16 k * cntAmount s.config.cntStep)).raise
      (.outOfBounds (popAddr (s.get .sp) k) .word .read false ip0)) := by
  induction k generalizing s n with
  | zero =>
    obtain ⟨n, rfl⟩ := Nat.exists_eq_succ_of_ne_zero (Nat.ne_of_gt hk)
    rw [discard, pop_of_outOfBounds _ _ hbad, error_bind]
    congr 2
    apply State.eq_of_get_eq <;> simp [popAddr]
  | succ k ih =>
    obtain ⟨n, rfl⟩ := Nat.exists_eq_succ_of_ne_zero (Nat.ne_of_gt (Nat.lt_of_le_of_lt (Nat.zero_le _) hk))
    rw [popAddr_succ] at hbad ⊢
    rw [discard, pop_of_inBounds _ _ (popsFit_head h), ok_bind]
    show discard ip0 n s.popped = _
    rw [ih s.popped n (by omega) (by simpa using popsFit_tail h) (by simpa using hbad)]
    congr 2
    · apply State.eq_of_get_eq
      · intro r; by_cases hr : r = .sp <;> simp [hr]
      · simp
      · simp only [State.setSfc_sfc, State.popped_sfc, State.popped_config, BitVec.ofNat_add, BitVec.add_mul]
        rw [show BitVec.ofNat 16 1 * cntAmount s.config.cntStep = cntAmount s.config.cntStep from BitVec.one_mul _]
        ring
      · simp
      · simp

/-- Popping into registers other than sp where the `k`-th read is the first outside the capacity. -/
theorem popRegs_of_unfit (rs : List Reg) (hsp : .sp ∉ rs) (k : Nat) (hk : k < rs.length)
    (h : PopsFit s.mem.size (s.get .sp) k) (hbad : s.mem.size < (popAddr (s.get .sp) k).toNat + 2) :
    popRegs ip0 rs s = .error (((s.poppedInto (rs.take k)).set .sp (popAddr (s.get .sp) k)).raise
      (.outOfBounds (popAddr (s.get .sp) k) .word .read false ip0)) := by
  induction rs generalizing s k with
  | nil => simp at hk
  | cons r rs ih =>
    have hr : Reg.sp ≠ r := fun e => hsp (by simp [e])
    cases k with
    | zero =>
      rw [popRegs, pop_of_outOfBounds _ _ hbad, error_bind]
      rfl
    | succ k =>
      rw [popAddr_succ] at hbad ⊢
      rw [popRegs, pop_of_inBounds _ _ (popsFit_head h), ok_bind]
      refine (ih _ (fun hx => hsp (by simp [hx])) k (by simpa using hk) (by simpa [hr] using popsFit_tail h)
        (by simpa [hr] using hbad)).trans ?_
      simp [hr, State.poppedInto]

/-- The registers after the first `k` of r8 to r1 have been popped. -/
theorem poppedInto_take_get (k : Nat) (hk : k ≤ 8) (r : Reg) (hr : r ≠ .sp) :
    (s.poppedInto (savedRegs.reverse.take k)).get r =
    match r with
    | .r8 => if 0 < k then s.wordAt (popAddr (s.get .sp) 0) else s.get .r8
    | .r7 => if 1 < k then s.wordAt (popAddr (s.get .sp) 1) else s.get .r7
    | .r6 => if 2 < k then s.wordAt (popAddr (s.get .sp) 2) else s.get .r6
    | .r5 => if 3 < k then s.wordAt (popAddr (s.get .sp) 3) else s.get .r5
    | .r4 => if 4 < k then s.wordAt (popAddr (s.get .sp) 4) else s.get .r4
    | .r3 => if 5 < k then s.wordAt (popAddr (s.get .sp) 5) else s.get .r3
    | .r2 => if 6 < k then s.wordAt (popAddr (s.get .sp) 6) else s.get .r2
    | .r1 => if 7 < k then s.wordAt (popAddr (s.get .sp) 7) else s.get .r1
    | r => s.get r := by
  rw [show savedRegs.reverse = [.r8, .r7, .r6, .r5, .r4, .r3, .r2, .r1] from rfl]
  interval_cases k <;> cases r <;> simp [State.poppedInto, BitVec.add_assoc, popAddr] at hr ⊢

/-- The end of the call epilogue where the `k`-th read is the first outside the capacity. -/
theorem popStateTail_of_unfit (k : Nat) (hk : k < 9 + (s.wordAt (popAddr (s.get .sp) 8)).toNat)
    (h : PopsFit s.mem.size (s.get .sp) k) (hbad : s.mem.size < (popAddr (s.get .sp) k).toNat + 2) :
    ∃ t : State, popStateTail ip0 v s = .error (t.raise (.outOfBounds (popAddr (s.get .sp) k) .word .read false ip0)) ∧
      t.config = s.config ∧ t.status = s.status ∧ t.mem = s.mem ∧
      t.sfc = s.sfc - BitVec.ofNat 16 k * cntAmount s.config.cntStep ∧
      ∀ r, t.get r = if r = .sp then popAddr (s.get .sp) k else (s.poppedInto (savedRegs.reverse.take k)).get r := by
  by_cases h8 : k < 8
  · refine ⟨_, by rw [popStateTail, popRegs_of_unfit ip0 s savedRegs.reverse (by decide) k h8 h hbad, error_bind], ?_, ?_, ?_, ?_, ?_⟩
    · simp [poppedInto_config]
    · simp [poppedInto_status]
    · simp [poppedInto_mem]
    · have : (savedRegs.reverse.take k).length = k := by simp [savedRegs]; omega
      simp [poppedInto_sfc, this]
    · simp
  obtain ⟨j, rfl⟩ := Nat.exists_eq_add_of_le (Nat.le_of_not_lt h8)
  have htake : savedRegs.reverse.take (8 + j) = savedRegs.reverse := List.take_of_length_le (by simp [savedRegs])
  have hsp : (s.poppedInto savedRegs.reverse).get .sp = s.get .sp + 16 := by rw [poppedInto_savedRegs_get]
  have haddr : popAddr (s.get .sp + 16) = fun i => popAddr (s.get .sp) (8 + i) := by
    funext i; simp only [popAddr]
    rw [show 2 * (8 + i) + 2 = 16 + (2 * i + 2) by ring, BitVec.ofNat_add 16 (2 * i + 2), BitVec.add_assoc]
    rfl
  have hc := poppedInto_config s savedRegs.reverse
  have hs := poppedInto_status s savedRegs.reverse
  have hm := poppedInto_mem s savedRegs.reverse
  have hf := poppedInto_sfc s savedRegs.reverse
  have hfit : PopsFit (s.poppedInto savedRegs.reverse).mem.size ((s.poppedInto savedRegs.reverse).get .sp) j := by
    rw [hm, hsp]; exact popsFit_drop 8 h
  have hpop := popRegs_of_fit ip0 s savedRegs.reverse (by decide) fun i hi => h i (Nat.lt_of_lt_of_le hi (Nat.le_add_right 8 j))
  have hword : (s.poppedInto savedRegs.reverse).wordAt (popAddr (s.get .sp) 8) = s.wordAt (popAddr (s.get .sp) 8) := by
    rw [State.wordAt, hm]; rfl
  rw [htake, popStateTail, hpop, ok_bind]
  generalize s.poppedInto savedRegs.reverse = t at *
  have h0 : t.get .sp + 2 = popAddr (s.get .sp) 8 := by rw [hsp]; exact congrFun haddr 0
  rcases j with _ | j
  · refine ⟨t.set .sp (t.get .sp + 2), by rw [pop_of_outOfBounds _ _ (by rw [h0, hm]; exact hbad), error_bind, h0],
      hc, hs, hm, hf, fun r => ?_⟩
    rw [State.set_get, h0]
  · rw [pop_of_inBounds _ _ (popsFit_head hfit), ok_bind, h0, hword]
    have e : popAddr (t.popped.get .sp) j = popAddr (s.get .sp) (8 + (j + 1)) := by
      rw [State.popped_get, if_pos rfl, ← popAddr_succ, hsp, haddr]
    have hd := discard_of_unfit ip0 t.popped (s.wordAt (popAddr (s.get .sp) 8)).toNat j (by omega)
      (by rw [State.popped_mem, State.popped_get, if_pos rfl]; exact popsFit_tail hfit)
      (by rw [e, State.popped_mem, hm]; exact hbad)
    rw [e] at hd
    simp only [hd, error_bind]
    refine ⟨_, rfl, hc, hs, hm, ?_, fun r => ?_⟩
    · rw [State.setSfc_sfc, State.popped_sfc, State.popped_config, hf, hc, show 8 + (j + 1) = 9 + j by omega,
        BitVec.ofNat_add, show BitVec.ofNat 16 savedRegs.reverse.length = 8 from rfl, show BitVec.ofNat 16 9 = 9 from rfl]
      ring
    · by_cases hr : r = .sp <;> simp [hr]

/-- What the call epilogue leaves where its `k`-th read is the first outside the capacity: sp at that address, ip and r8 to r1
as far as they have been popped, the counter of the successful pops, and everything else as it was (R182, R214). -/
theorem popState_of_unfit (k : Nat) (hk : k < 11 + (s.wordAt (popAddr (s.get .fp) 10)).toNat)
    (h : PopsFit s.mem.size (s.get .fp) k) (hbad : s.mem.size < (popAddr (s.get .fp) k).toNat + 2) :
    ∃ t : State, popState ip0 s = .error (t.raise (.outOfBounds (popAddr (s.get .fp) k) .word .read false ip0)) ∧
      t.config = s.config ∧ t.status = s.status ∧ t.mem = s.mem ∧ t.sfc = retCounter s k ∧
      t.get .sp = popAddr (s.get .fp) k ∧
      ∀ r, r ≠ .sp → t.get r = match retSlots.find? fun slot => slot.1 = r with
        | some slot => if slot.2 < k then s.wordAt (popAddr (s.get .fp) slot.2) else s.get r
        | none => s.get r := by
  have eq : popState ip0 s = pop ip0 (s.set .sp (s.get .fp)) >>= fun p => pop ip0 (p.2.setSfc p.1) >>= fun q =>
      popStateTail ip0 (s.get .fp + p.1) (q.2.set .ip q.1) := rfl
  have a0 : s.get .fp + 2 = popAddr (s.get .fp) 0 := rfl
  have a1 : popAddr (s.get .fp) 0 + 2 = popAddr (s.get .fp) 1 := by rw [popAddr_succ]; rfl
  have a2 (i : Nat) : popAddr (popAddr (s.get .fp) 1) i = popAddr (s.get .fp) (i + 2) := by
    rw [popAddr_succ (s.get .fp) (i + 1), popAddr_succ (s.get .fp + 2), ← a1, ← a0]
  generalize ha : s.set .sp (s.get .fp) = a at eq
  have a_sp : a.get .sp = s.get .fp := by rw [← ha]; simp
  have a_get (r : Reg) (hr : r ≠ .sp) : a.get r = s.get r := by rw [← ha]; simp [hr]
  have a_mem : a.mem = s.mem := by rw [← ha]; rfl
  have a_word (x : Word) : a.wordAt x = s.wordAt x := by rw [← ha]; rfl
  have a_config : a.config = s.config := by rw [← ha]; rfl
  have a_status : a.status = s.status := by rw [← ha]; rfl
  have a_sfc : a.sfc = s.sfc := by rw [← ha]; rfl
  clear ha
  rw [eq]
  rcases k with _ | k
  · rw [pop_of_outOfBounds _ _ (by rw [a_sp, a_mem]; exact hbad), error_bind, a_sp]
    refine ⟨_, rfl, a_config, a_status, a_mem, a_sfc, (by rw [State.set_get, if_pos rfl]; rfl), fun r hr => ?_⟩
    rw [State.set_get, if_neg hr, a_get r hr]
    cases r <;> simp [retSlots]
  rw [pop_of_inBounds _ _ (by rw [a_sp, a_mem]; exact h 0 (by omega)), ok_bind]
  simp only [a_sp, a0, a_word]
  generalize hb : a.popped.setSfc (s.wordAt (popAddr (s.get .fp) 0)) = b
  have b_sp : b.get .sp = popAddr (s.get .fp) 0 := by rw [← hb, State.setSfc_get, State.popped_get, if_pos rfl, a_sp]; rfl
  have b_get (r : Reg) (hr : r ≠ .sp) : b.get r = s.get r := by rw [← hb]; simp [hr, a_get r hr]
  have b_mem : b.mem = s.mem := by rw [← hb]; exact a_mem
  have b_word (x : Word) : b.wordAt x = s.wordAt x := by rw [← hb]; exact a_word x
  have b_config : b.config = s.config := by rw [← hb]; exact a_config
  have b_status : b.status = s.status := by rw [← hb]; exact a_status
  have b_sfc : b.sfc = s.wordAt (popAddr (s.get .fp) 0) := by rw [← hb]; rfl
  clear hb a_sp a_get a_mem a_word a_config a_status a_sfc
  rcases k with _ | k
  · rw [pop_of_outOfBounds _ _ (by rw [b_sp, b_mem, a1]; exact hbad), error_bind, b_sp, a1]
    refine ⟨_, rfl, b_config, b_status, b_mem, ?_, by simp, fun r hr => ?_⟩
    · simp [b_sfc, retCounter]
    · rw [State.set_get, if_neg hr, b_get r hr]
      cases r <;> simp [retSlots]
  rw [pop_of_inBounds _ _ (by rw [b_sp, b_mem, a1]; exact h 1 (by omega)), ok_bind]
  simp only [b_sp, a1, b_word]
  generalize hc : b.popped.set .ip (s.wordAt (popAddr (s.get .fp) 1)) = c
  have c_sp : c.get .sp = popAddr (s.get .fp) 1 := by rw [← hc, State.set_get, if_neg (by decide), State.popped_get, if_pos rfl, b_sp, a1]
  have c_get (r : Reg) (hr : r ≠ .sp) : c.get r = if r = .ip then s.wordAt (popAddr (s.get .fp) 1) else s.get r := by
    rw [← hc]; simp [hr, b_get r hr]
  have c_mem : c.mem = s.mem := by rw [← hc]; exact b_mem
  have c_word (x : Word) : c.wordAt x = s.wordAt x := by rw [← hc]; exact b_word x
  have c_config : c.config = s.config := by rw [← hc]; exact b_config
  have c_status : c.status = s.status := by rw [← hc]; exact b_status
  have c_sfc : c.sfc = s.wordAt (popAddr (s.get .fp) 0) - cntAmount s.config.cntStep := by
    rw [← hc]; simp [b_sfc, b_config]
  clear hc b_sp b_get b_mem b_word b_config b_status b_sfc
  obtain ⟨t, ht, tc, ts, tm, tf, tg⟩ := popStateTail_of_unfit ip0 (s.get .fp + s.wordAt (popAddr (s.get .fp) 0)) c k
    (by rw [c_sp, a2, c_word, show 8 + 2 = 10 from rfl]; omega)
    (fun i hi => by rw [c_sp, a2, c_mem]; exact h (i + 2) (by omega))
    (by rw [c_sp, a2, c_mem]; exact hbad)
  rw [c_sp, a2] at ht
  refine ⟨t, ht, tc.trans c_config, ts.trans c_status, tm.trans c_mem, ?_, by rw [tg, if_pos rfl, c_sp, a2], fun r hr => ?_⟩
  · rw [tf, c_sfc, c_config, retCounter, if_neg (by omega), show k + 1 + 1 - 1 = k + 1 by omega, BitVec.ofNat_add,
      show BitVec.ofNat 16 1 = 1 from rfl]
    ring
  · rw [tg, if_neg hr]
    by_cases hk8 : k ≤ 8
    · rw [poppedInto_take_get _ _ hk8 r hr]
      cases r <;> simp [retSlots, c_get, c_word, c_sp, a2] at hr ⊢ <;> rfl
    · rw [List.take_of_length_le (by simp [savedRegs]; omega), poppedInto_savedRegs_get]
      cases r <;> simp [retSlots, c_get, c_word, c_sp, a2] at hr ⊢ <;> omega

end Sys2Proof.Machine
end

