-- ==== Sys2Proof/Laws/Run.lean ====
section
/-! SUPPORT. What the states of a run are (R250). -/

namespace Sys2Proof.Machine

variable (s : State) (n : Nat)

theorem afterStep_of_next {t : State} (h : step s = .next t) : s.afterStep = t := by rw [State.afterStep, h]
theorem afterStep_of_fault {f : Fault} (h : step s = .fault f) : s.afterStep = f.after := by rw [State.afterStep, h]

/-- A FAULTED engine stays as it is (R97). -/
theorem afterStep_of_faulted {rec : FaultRecord} (h : s.status = .faulted rec) : s.afterStep = s := by
  rw [afterStep_of_fault s (step_of_faulted s h), Fault.ofRecord_after]

@[simp] theorem runN_zero : runN 0 s = s := rfl
@[simp] theorem runN_succ : runN (n + 1) s = runN n s.afterStep := rfl

/-- A run goes on from the state an earlier part of it left. -/
theorem runN_add (k : Nat) : runN (n + k) s = runN k (runN n s) := by
  induction n generalizing s with
  | zero => rw [Nat.zero_add, runN_zero]
  | succ n ih => rw [Nat.succ_add, runN_succ, runN_succ, ih]

/-- A state that a step leaves as it is ends every run that reaches it. -/
theorem runN_of_fixed (h : s.afterStep = s) : runN n s = s := by
  induction n with
  | zero => rfl
  | succ n ih => rw [runN_succ, h, ih]

@[simp] theorem runEnd_running (h : s.status = .running) : s.runEnd = .hostStopped := by rw [State.runEnd, h]
@[simp] theorem runEnd_faulted {rec : FaultRecord} (h : s.status = .faulted rec) : s.runEnd = .faulted rec := by
  rw [State.runEnd, h]

end Sys2Proof.Machine
end

