-- ==== Sys2Proof/Tests/Slice0.lean ====
section
/-! SUPPORT. Tests: the well-formedness smoke, one written-out word per constructor, single steps taken from the spec's test
vectors (95_test_vectors.md), and for every statement with hypotheses a state that meets them all. -/

namespace Sys2Proof.Tests

open Sys2Proof.Machine

/-! ## Helpers -/

/-- The conventional start state of 95_test_vectors.md: reset over a Memory of `size` bytes, the program at 0x0000. -/
def boot (size : Nat) (prog : List Byte) : State :=
  State.constructed Config.standard ((Memory.create size).placeBytes 0 prog)

/-- The state with bytes placed from an address on. -/
def place (s : State) (a : Word) (bytes : List Byte) : State := s.setMem (s.mem.placeBytes a bytes)

/-- The step completes and its state satisfies a check. -/
def nextIs (s : State) (p : State → Bool) : Bool :=
  match step s with
  | .next t => p t
  | _ => false

/-- The step faults with a record, and the state it leaves satisfies a check. -/
def faultIs (s : State) (r : FaultRecord) (p : State → Bool) : Bool :=
  match step s with
  | .fault f => f.record == r && f.after.status == .faulted r && p f.after
  | _ => false

/-- `BytesAt` as a check over the positions. -/
theorem bytesAt_of_fin (a : Word) (bytes : List Byte) (s : State)
    (h : ∀ k : Fin bytes.length, (a + BitVec.ofNat 16 k).toNat < s.mem.size ∧
      s.byteAt (a + BitVec.ofNat 16 k).toNat = bytes[k]) : BytesAt a bytes s :=
  fun k hk => h ⟨k, hk⟩

/-! ## Well-formedness: an ill-formed term for the one check (R89) -/

theorem test_wellFormed_refuses_assigned_byte : (Instr.unassigned 0x10).wellFormed = false := by decide
theorem test_wellFormed_accepts_unassigned_byte : (Instr.unassigned 0x16).wellFormed = true := by decide

/-! ## Decoding: words written out from the encodings of 30_encoding.md R82 and the rules' examples -/

theorem test_decode_movLitReg : decode [0x10, 0x12, 0x34, 0x02] = .ok (.movLitReg 0x1234 .r1, []) := rfl
theorem test_decode_movRegReg : decode [0x11, 0x02, 0x05] = .ok (.movRegReg .r1 .r4, []) := rfl
theorem test_decode_movRegMem : decode [0x12, 0x02, 0x00, 0x80] = .ok (.movRegMem .r1 0x0080, []) := rfl
theorem test_decode_movMemReg : decode [0x13, 0x00, 0x80, 0x04] = .ok (.movMemReg 0x0080 .r3, []) := rfl
theorem test_decode_addRegReg : decode [0x14, 0xFF, 0x0E] = .ok (.addRegReg .r2 .r1, []) := rfl
theorem test_decode_jmpNotEq : decode [0x15, 0x00, 0x03, 0x08] = .ok (.jmpNotEq 0x0003 0x08, []) := rfl
theorem test_decode_pshLit : decode [0x17, 0x00, 0x05] = .ok (.pshLit 0x0005, []) := rfl
theorem test_decode_pshReg : decode [0x18, 0x02] = .ok (.pshReg .r1, []) := rfl
theorem test_decode_popReg : decode [0x1A, 0x03] = .ok (.popReg .r2, []) := rfl
theorem test_decode_calLit : decode [0x5A, 0x00, 0x40] = .ok (.calLit 0x0040, []) := rfl
theorem test_decode_calReg : decode [0x5B, 0x04] = .ok (.calReg .r3, []) := rfl
theorem test_decode_ret : decode [0x5C] = .ok (.ret, []) := rfl
theorem test_decode_unassigned : decode [0x19, 0x07] = .ok (.unassigned 0x19, [0x07]) := rfl
theorem test_decode_truncated : decode [0x12, 0x02, 0x00] = .error (.truncated 0x12) := rfl
theorem test_decodeTableWord : decodeTableWord 32 0x02341210 = some (.movLitReg 0x1234 .r1) := rfl
theorem test_withFetchWord_runs : nextIs (State.reset.withFetchWord 24 0x050017) (fun t => t.wordAt 0xFFFE == 5) = true := by
  decide

/-! ## One step each, from the vectors of 95_test_vectors.md -/

/-- V-M1. -/
theorem test_movLitReg_aliased : nextIs (boot 256 [0x10, 0x00, 0x50, 0x10]) (fun t =>
    t.get .r3 == 0x50 && t.get .ip == 4) = true := by decide
/-- V-M2. -/
theorem test_movLitReg_jumps : nextIs (boot 256 [0x10, 0x12, 0x34, 0x0C]) (fun t => t.get .ip == 0x1234) = true := by
  decide
/-- V-M3. -/
theorem test_movRegReg_reads_next_ip : nextIs (boot 256 [0x11, 0x00, 0x02]) (fun t =>
    t.get .r1 == 3 && t.get .ip == 3) = true := by decide
/-- V-M5. -/
theorem test_movRegReg_first_is_source : nextIs ((boot 256 [0x11, 0x02, 0x05]).set .r1 0xBEEF) (fun t =>
    t.get .r4 == 0xBEEF && t.get .r1 == 0xBEEF) = true := by decide
/-- V-M6. -/
theorem test_movRegMem_big_endian : nextIs ((boot 256 [0x12, 0x02, 0x00, 0xFE]).set .r1 0x1234) (fun t =>
    t.byteAt 0xFE == 0x12 && t.byteAt 0xFF == 0x34 && t.get .ip == 4) = true := by decide
/-- V-M7. -/
theorem test_movRegMem_faults : faultIs ((boot 256 [0x12, 0x02, 0x00, 0xFF]).set .r1 0x1234)
    (.outOfBounds 0xFF .word .write false 0) (fun t => t.byteAt 0xFF == 0 && t.get .ip == 4) = true := by decide
/-- V-M8. -/
theorem test_movMemReg_odd_address : nextIs (boot 256 [0x13, 0x00, 0x01, 0x02]) (fun t => t.get .r1 == 1) = true := by
  decide
/-- V-M9. -/
theorem test_movMemReg_faults : faultIs (boot 256 [0x13, 0x00, 0xFF, 0x02])
    (.outOfBounds 0xFF .word .read false 0) (fun t => t.get .r1 == 0 && t.get .ip == 4) = true := by decide
/-- V-A2. -/
theorem test_addRegReg_wraps : nextIs (((boot 256 [0x14, 0x02, 0x03]).set .r1 0xFFFF).set .r2 1) (fun t =>
    t.get .acc == 0 && t.get .r1 == 0xFFFF && t.get .ip == 3) = true := by decide
/-- V-A5. -/
theorem test_addRegReg_reads_next_ip : nextIs ((boot 256 [0x14, 0x00, 0x02]).set .r1 0x10) (fun t =>
    t.get .acc == 0x13) = true := by decide
/-- V-B1. -/
theorem test_jmpNotEq_falls_through : nextIs ((boot 256 [0x15, 0x12, 0x34, 0x40]).set .acc 0x1234) (fun t =>
    t.get .ip == 4) = true := by decide
/-- V-B2. -/
theorem test_jmpNotEq_jumps : nextIs (boot 256 [0x15, 0x12, 0x34, 0x40]) (fun t => t.get .ip == 0x40) = true := by
  decide
/-- V-S8: the push overwrites its own opcode byte; sp wraps. -/
theorem test_pshLit_wraps_sp : nextIs ((boot 65536 [0x17, 0x00, 0x07]).set .sp 0) (fun t =>
    t.wordAt 0 == 7 && t.get .sp == 0xFFFE && t.sfc == 2) = true := by decide
/-- V-S9. -/
theorem test_pshLit_faults : faultIs ((boot 256 [0x17, 0x00, 0x07]).set .sp 0xFF)
    (.outOfBounds 0xFF .word .write false 0) (fun t => t.get .sp == 0xFF && t.sfc == 0 && t.get .ip == 3) = true := by
  decide
/-- V-S2. -/
theorem test_pshReg_pushes_old_sp : nextIs (boot 256 [0x18, 0x0A]) (fun t =>
    t.wordAt 0xFE == 0xFE && t.get .sp == 0xFC && t.sfc == 2) = true := by decide
/-- V-F5: the instruction wraps around the top of the address space. -/
theorem test_pshReg_wrapped_fetch : nextIs (((place (boot 65536 [0x02]) 0xFFFF [0x18]).set .ip 0xFFFF).set .r1 0xABCD)
    (fun t => t.wordAt 0xFFFE == 0xABCD && t.get .sp == 0xFFFC && t.get .ip == 1) = true := by decide
/-- V-S7. -/
theorem test_popReg_wraps_sp : nextIs (boot 65536 [0x1A, 0x02]) (fun t =>
    t.get .r1 == 0x1A02 && t.get .sp == 0 && t.sfc == 0xFFFE && t.get .ip == 2) = true := by decide
/-- V-S6. -/
theorem test_popReg_faults : faultIs (boot 256 [0x1A, 0x02]) (.outOfBounds 0x100 .word .read false 0) (fun t =>
    t.get .sp == 0x100 && t.get .r1 == 0 && t.sfc == 0 && t.get .ip == 2) = true := by decide
/-- V-C1. -/
theorem test_calLit_frame : nextIs (boot 256 [0x5A, 0x00, 0x40]) (fun t =>
    t.wordAt 0xEE == 3 && t.wordAt 0xEC == 0x14 && t.get .sp == 0xEA && t.get .fp == 0xEA && t.sfc == 0 &&
    t.get .ip == 0x40) = true := by decide
/-- V-C5: five pushes keep their effects, the sixth faults. -/
theorem test_calLit_faults : faultIs ((boot 256 [0x5A, 0x00, 0x40]).set .sp 8) (.outOfBounds 0xFFFE .word .write false 0)
    (fun t => t.get .sp == 0xFFFE && t.get .fp == 0xFE && t.sfc == 10 && t.get .ip == 3 && t.byteAt 0 == 0) = true := by
  decide
/-- V-C2. -/
theorem test_calReg_old_sp : nextIs (boot 256 [0x5B, 0x0A]) (fun t =>
    t.get .ip == 0xFE && t.get .sp == 0xEA && t.get .fp == 0xEA && t.wordAt 0xEE == 2) = true := by decide
/-- V-C3. -/
theorem test_calReg_old_fp : nextIs ((boot 256 [0x5B, 0x0B]).set .fp 0x80) (fun t =>
    t.get .ip == 0x80 && t.get .sp == 0xEA && t.get .fp == 0xEA) = true := by decide

/-- The state of program P3 before its RET: the marker, the return address, r8 to r1, argCount 1, the argument. -/
def beforeRet : State :=
  ((((place (boot 256 []) 0xE6 [0, 0, 0x00, 0x18, 0x00, 0x0D, 0, 0, 0, 0, 0, 0, 0, 0, 0, 0, 0, 0, 0, 0, 0x00, 0xAA,
    0x00, 0x01, 0x00, 0x05]).set .sp 0xE6).set .fp 0xE6).set .r1 7).set .acc 0x0E

/-- Program P3, step 7. -/
theorem test_ret_restores : nextIs (place beforeRet 0 [0x5C]) (fun t =>
    t.get .ip == 0x0D && t.get .r1 == 0xAA && t.get .acc == 0x0E && t.get .sp == 0xFE && t.get .fp == 0xFE &&
    t.sfc == 2) = true := by decide
/-- V-RET0. -/
theorem test_ret_faults : faultIs (boot 256 [0x5C]) (.outOfBounds 0x100 .word .read false 0) (fun t =>
    t.get .sp == 0x100 && t.get .fp == 0xFE) = true := by decide
/-- V-C6: ip, r8 to r1 and the counter keep what the ten earlier pops of RET gave them. -/
theorem test_ret_fault_keeps_pops : faultIs (((place (boot 256 [0x5C]) 0xEC [0x00, 0x14, 0x00, 0x03, 0x00, 0x88, 0x00, 0x77,
    0x00, 0x66, 0x00, 0x55, 0x00, 0x44, 0x00, 0x33, 0x00, 0x22, 0x00, 0x11]).set .sp 0xEA).set .fp 0xEA)
    (.outOfBounds 0x100 .word .read false 0) (fun t => t.get .ip == 3 && t.get .r8 == 0x88 && t.get .r1 == 0x11 &&
      t.get .sp == 0x100 && t.get .fp == 0xEA && t.sfc == 2) = true := by decide
/-- V-F1. -/
theorem test_unassigned_nop : nextIs (boot 256 [0x00]) (fun t => t == (boot 256 [0x00]).set .ip 1) = true := by
  decide
/-- V-F3. -/
theorem test_unassigned_fault : faultIs (State.constructed { cntStep := .two, policy := .fault }
    ((Memory.create 256).placeBytes 0 [0x16])) (.unknownOpcode 0x16 0) (fun t => t.get .ip == 1) = true := by
  decide
/-- V-F6: a word operand does not wrap. -/
theorem test_fetch_word_never_wraps : faultIs ((place (boot 65536 []) 0xFFFE [0x17]).set .ip 0xFFFE)
    (.outOfBounds 0xFFFF .word .read true 0xFFFE) (fun t => t.get .ip == 0xFFFF && t.get .sp == 0xFFFE) = true := by
  decide
/-- The codes of R210. -/
theorem test_fault_codes : (FaultRecord.outOfBounds 0 .byte .read true 0).code = 1 ∧ (FaultRecord.unknownOpcode 0 0).code = 2 ∧
    (HostError.unknownRegister "pc").code = some 3 := by decide

/-! ## Witnesses: every statement's hypotheses are met together -/

theorem witness_DecodeEncodeAgree : (Instr.unassigned 0x16).wellFormed = true ∧ Instr.ret.wellFormed = true := by decide
theorem witness_LengthFixedByOpcodeByte : ([0x00, 0x05] : List Byte).length + 1 =
    (if (0x17 : Byte) = 0x18 ∨ (0x17 : Byte) = 0x1A ∨ (0x17 : Byte) = 0x5B then 2
     else if (0x17 : Byte) = 0x11 ∨ (0x17 : Byte) = 0x14 ∨ (0x17 : Byte) = 0x17 ∨ (0x17 : Byte) = 0x5A then 3
     else if (0x17 : Byte) = 0x10 ∨ (0x17 : Byte) = 0x12 ∨ (0x17 : Byte) = 0x13 ∨ (0x17 : Byte) = 0x15 then 4
     else 1) := by decide
theorem witness_DecodedIsWellFormed : decode [0x18, 0x0E, 0x01] = .ok (.pshReg .r1, [0x01]) := rfl

/-- V-F5's state: the instruction at 0xFFFF wraps. -/
def wrapped : State := (place (boot 65536 [0x02]) 0xFFFF [0x18]).set .ip 0xFFFF

theorem witness_StepRunsDecodedInstruction : ∃ s bytes i, s.status = .running ∧ s.mem.size ≤ Config.maxMemSize ∧
    decode bytes = .ok (i, []) ∧ BytesAtIp bytes s ∧ (s.get .ip).toNat + bytes.length ≤ s.mem.size := by
  refine ⟨boot 256 [0x18, 0x0A], [0x18, 0x0A], .pshReg .sp, by decide, by decide, rfl,
    bytesAt_of_fin _ _ _ (by decide), by decide⟩
theorem witness_StepRunsWrappedInstruction : wrapped.status = .running ∧ wrapped.mem.size ≤ Config.maxMemSize ∧
    decode [0x18, 0x02] = .ok (.pshReg .r1, []) ∧ BytesAtIp [0x18, 0x02] wrapped ∧
    OperandsFit wrapped.mem.size (wrapped.get .ip + 1) (operandsOf (([0x18, 0x02] : List Byte).headD 0)) := by
  refine ⟨by decide, by decide, rfl, bytesAt_of_fin _ _ _ (by decide), by decide, trivial⟩
theorem witness_OpcodeFetchBeyondMemoryFaults : ∃ s : State, s.status = .running ∧ s.mem.size ≤ (s.get .ip).toNat :=
  ⟨(boot 256 []).set .ip 0x100, by decide, by decide⟩
theorem witness_WordOperandNeverWraps : ∃ s t : State,
    (s.status = .running ∧ s.Inv ∧ s.byteAt (s.get .ip).toNat ∈ ([0x10, 0x13, 0x15, 0x17, 0x5A] : List Byte) ∧
      (s.get .ip).toNat + 2 = s.mem.size) ∧
    (t.status = .running ∧ t.Inv ∧ t.byteAt (t.get .ip).toNat = 0x12 ∧ (t.get .ip).toNat + 3 = t.mem.size) :=
  ⟨(place (boot 65536 []) 0xFFFE [0x17]).set .ip 0xFFFE, (place (boot 65536 []) 0xFFFD [0x12]).set .ip 0xFFFD,
    by decide, by decide⟩
theorem witness_FetchFaultOnlyAdvancesIp : ∃ (s : State) (f : Fault), s.status = .running ∧ step s = .fault f ∧
    f.record = .outOfBounds 0x100 .byte .read true 0x100 :=
  ⟨(boot 256 []).set .ip 0x100, _, by decide, rfl, by decide⟩
theorem witness_FaultedEngineTakesNoStep :
    ((boot 256 []).setStatus (.faulted (.unknownOpcode 0x16 0))).status = .faulted (.unknownOpcode 0x16 0) := rfl
theorem witness_FaultRecordIsTrue : ∃ (s : State) (f : Fault), s.status = .running ∧ step s = .fault f :=
  ⟨(boot 256 []).set .ip 0x100, _, by decide, rfl⟩
theorem witness_UnassignedOpcodeStep : ∃ s t : State,
    (s.status = .running ∧ (s.get .ip).toNat < s.mem.size ∧ s.byteAt (s.get .ip).toNat = 0xFF ∧ s.config.policy = .nop) ∧
    (t.status = .running ∧ (t.get .ip).toNat < t.mem.size ∧ t.byteAt (t.get .ip).toNat = 0x16 ∧ t.config.policy = .fault) ∧
    (0xFF : Byte) ∉ ([0x10, 0x11, 0x12, 0x13, 0x14, 0x15, 0x17, 0x18, 0x1A, 0x5A, 0x5B, 0x5C] : List Byte) ∧
    (0x16 : Byte) ∉ ([0x10, 0x11, 0x12, 0x13, 0x14, 0x15, 0x17, 0x18, 0x1A, 0x5A, 0x5B, 0x5C] : List Byte) :=
  ⟨boot 256 [0xFF], State.constructed { cntStep := .two, policy := .fault } ((Memory.create 256).placeBytes 0 [0x16]),
    by decide, by decide, by decide, by decide⟩
theorem witness_StopLoopsRepeatForever_move : ∃ s : State, s.status = .running ∧ s.mem.size ≤ Config.maxMemSize ∧
    BytesAtIp [0x10, hiByte (s.get .ip), loByte (s.get .ip), 0x00] s ∧
    OperandsFit s.mem.size (s.get .ip + 1) [.literal16, .register] := by
  refine ⟨boot 256 [0x10], by decide, by decide, bytesAt_of_fin _ _ _ (by decide), by decide, by decide,
    trivial⟩
/-- V-B4's state. -/
theorem witness_StopLoopsRepeatForever_branch : ∃ s : State, s.status = .running ∧ s.mem.size ≤ Config.maxMemSize ∧
    s.get .ip = zeroExtend16 0 ∧ (1 : Word) ≠ s.get .acc ∧ BytesAtIp [0x15, hiByte 1, loByte 1, 0] s ∧
    OperandsFit s.mem.size (s.get .ip + 1) [.literal16, .address8] := by
  refine ⟨boot 256 [0x15, 0x00, 0x01, 0x00], by decide, by decide, by decide, by decide,
    bytesAt_of_fin _ _ _ (by decide), by decide, by decide, trivial⟩
theorem witness_StepKeepsInvariant : ∃ s t : State, s.Inv ∧ step s = .next t :=
  ⟨boot 256 [], _, by decide, rfl⟩
theorem witness_FaultKeepsInvariant : ∃ (s : State) (f : Fault), s.Inv ∧ step s = .fault f :=
  ⟨(boot 256 []).set .ip 0x100, _, by decide, rfl⟩
theorem witness_EqualBytesEqualMemories : ∃ m m' : Memory, m.wf ∧ m'.wf ∧ m.size = m'.size ∧
    (∀ a, m.byteAt a = m'.byteAt a) ∧ m.byteAt 8 = 0x12 :=
  ⟨(Memory.create 256).setWord 8 0x1234, (Memory.create 256).setWord 8 0x1234, by decide, by decide, rfl,
    fun _ => rfl, by decide⟩
theorem witness_ConstructionResetsTheEngine : 2 ≤ (Memory.create 2).size ∧ (Memory.create 65536).size ≤ 65536 ∧
    (Memory.create 1).size < 2 ∧ 65536 < (Memory.create 65537).size := by decide
theorem witness_HostGetsAndSetsRegisters : ∀ r, regName r ≠ "pc" := by intro r; cases r <;> decide
theorem witness_LoaderWritesTheImage : ([0x5C, 0x00] : List Byte).length ≤ 2 := by decide
theorem witness_HostWritesOneByte : (Memory.create 256).wf ∧ (0 : Int) ≤ 255 ∧
    (255 : Int) + 1 ≤ (Memory.create 256).size ∧ ((Memory.create 256).size : Int) < 256 + 1 ∧ (-1 : Int) < 0 := by
  decide
theorem witness_WordReadIsBigEndian : (0xFE : Word).toNat + 2 ≤ (boot 256 []).mem.size ∧
    (boot 256 []).mem.size < (0xFF : Word).toNat + 2 := by decide
theorem witness_WordWriteIsBigEndian : (boot 256 [1]).mem.wf ∧ (0xFE : Word).toNat + 2 ≤ (boot 256 [1]).mem.size ∧
    (boot 256 [1]).mem.size < (0xFF : Word).toNat + 2 := by decide
/-- The fetch at 0xFFFE leaves ip = 0; the one at 0xFFFF, the last byte, faults. -/
theorem witness_FetchWordIsOneAccess :
    (((boot 65536 []).set .ip 0xFFFE).get .ip).toNat + 2 ≤ ((boot 65536 []).set .ip 0xFFFE).mem.size ∧
    ((boot 65536 []).set .ip 0xFFFF).mem.size < (((boot 65536 []).set .ip 0xFFFF).get .ip).toNat + 2 := by decide
theorem witness_MovRegMemStoresWord : (boot 256 [1]).mem.wf ∧ (0xFE : Word).toNat + 2 ≤ (boot 256 [1]).mem.size := by
  decide
theorem witness_MovMemRegLoadsWord : (0xFE : Word).toNat + 2 ≤ (boot 256 []).mem.size := by decide
theorem witness_MoveOutsideMemoryFaults : (boot 256 []).mem.size < (0xFF : Word).toNat + 2 := by decide
theorem witness_PushInstructionsPush : (boot 256 [1]).mem.wf ∧
    ((boot 256 [1]).get .sp).toNat + 2 ≤ (boot 256 [1]).mem.size := by decide
theorem witness_PushOutsideMemoryFaults : ((boot 256 []).set .sp 0xFF).mem.size <
    (((boot 256 []).set .sp 0xFF).get .sp).toNat + 2 := by decide
theorem witness_PopRegPops : (((boot 256 []).set .sp 0xFC).get .sp + 2).toNat + 2 ≤ ((boot 256 []).set .sp 0xFC).mem.size := by
  decide
theorem witness_PopOutsideMemoryFaults : (boot 256 []).mem.size < ((boot 256 []).get .sp + 2).toNat + 2 := by decide
theorem witness_PushThenPopRoundTrip : (boot 256 [1]).mem.wf ∧
    ((boot 256 [1]).get .sp).toNat + 2 ≤ (boot 256 [1]).mem.size := by decide
theorem witness_CallsBuildTheFrame : (boot 256 []).Inv ∧ PushesFit (boot 256 []).mem.size ((boot 256 []).get .sp) 10 := by
  unfold PushesFit; decide
/-- V-C5's state: the sixth push faults. -/
theorem witness_CallFaultKeepsEarlierPushes : ∃ s : State, s.Inv ∧ 5 < 10 ∧ PushesFit s.mem.size (s.get .sp) 5 ∧
    s.mem.size < (pushAddr (s.get .sp) 5).toNat + 2 := by
  unfold PushesFit
  exact ⟨(boot 256 []).set .sp 8, by decide⟩
/-- The state of program P3 before its RET. -/
theorem witness_RetRestoresFromTheFrame : PopsFit beforeRet.mem.size (beforeRet.get .fp)
    (11 + (beforeRet.wordAt (popAddr (beforeRet.get .fp) 10)).toNat) := by
  unfold PopsFit; decide
/-- The first pop at reset, a discarded argument beyond the end of Memory, and V-C6's argCount pop. -/
theorem witness_RetFaultsAtFirstBadPop : ∃ s t u : State,
    (0 < 11 + (s.wordAt (popAddr (s.get .fp) 10)).toNat ∧ PopsFit s.mem.size (s.get .fp) 0 ∧
      s.mem.size < (popAddr (s.get .fp) 0).toNat + 2) ∧
    (11 < 11 + (t.wordAt (popAddr (t.get .fp) 10)).toNat ∧ PopsFit t.mem.size (t.get .fp) 11 ∧
      t.mem.size < (popAddr (t.get .fp) 11).toNat + 2) ∧
    (10 < 11 + (u.wordAt (popAddr (u.get .fp) 10)).toNat ∧ PopsFit u.mem.size (u.get .fp) 10 ∧
      u.mem.size < (popAddr (u.get .fp) 10).toNat + 2) := by
  unfold PopsFit
  exact ⟨boot 256 [], (place (boot 256 []) 0xFE [0x00, 0x01]).set .fp 0xE8, (boot 256 []).set .fp 0xEA, by decide⟩

/-- A caller in a consistent frame: argCount 0 pushed at 0xFE, sp = 0xFC, fp = 0xFE, the counter `d` above `fp - sp`. -/
def caller (c : CntStep) (d : Word) : State :=
  (((boot 256 []).set .sp 0xFC).setSfc (2 + d) |> fun s => { s with config := { s.config with cntStep := c } })

/-- CNT_STEP 2; the callee is the state the call leaves. -/
theorem witness_CallThenReturnRestores_two : ∃ s t u : State, s.Inv ∧ PushesFit s.mem.size (s.get .sp) 10 ∧
    s.config.cntStep = .two ∧ s.sfc = s.get .fp - s.get .sp ∧ exec (.calLit 0x40) s = .next t ∧ u.config = t.config ∧
    u.mem.size = t.mem.size ∧ u.get .fp = t.get .fp ∧
    (∀ k < 10, u.wordAt (pushAddr (s.get .sp) k) = t.wordAt (pushAddr (s.get .sp) k)) ∧
    PopsFit u.mem.size (s.get .sp) (1 + (u.wordAt (s.get .sp + 2)).toNat) := by
  refine ⟨caller .two 0, _, _, by decide, by unfold PushesFit; decide, by decide, by decide,
    exec_calLit_of_fit _ _ (by unfold PushesFit; decide), rfl, rfl, rfl, fun _ _ => rfl, ?_⟩
  unfold PopsFit; decide
/-- CNT_STEP 1. -/
theorem witness_CallThenReturnRestores_one : ∃ s t u : State, s.Inv ∧ PushesFit s.mem.size (s.get .sp) 10 ∧
    s.config.cntStep = .one ∧ s.sfc = s.get .fp - s.get .sp ∧ exec (.calLit 0x40) s = .next t ∧ u.config = t.config ∧
    u.mem.size = t.mem.size ∧ u.get .fp = t.get .fp ∧
    (∀ k < 10, u.wordAt (pushAddr (s.get .sp) k) = t.wordAt (pushAddr (s.get .sp) k)) ∧
    PopsFit u.mem.size (s.get .sp) (1 + (u.wordAt (s.get .sp + 2)).toNat) := by
  refine ⟨caller .one 0, _, _, by decide, by unfold PushesFit; decide, by decide, by decide,
    exec_calLit_of_fit _ _ (by unfold PushesFit; decide), rfl, rfl, rfl, fun _ _ => rfl, ?_⟩
  unfold PopsFit; decide
/-- F = 0x00FE and d = 2: the second call from one frame. -/
theorem witness_RepeatedCallsDriftByTwo : ∃ s t u : State, s.Inv ∧ PushesFit s.mem.size (s.get .sp) 10 ∧
    s.config.cntStep = .two ∧ s.sfc = 0xFE - s.get .sp + 2 ∧ exec (.calLit 0x40) s = .next t ∧ u.config = t.config ∧
    u.mem.size = t.mem.size ∧ u.get .fp = t.get .fp ∧
    (∀ k < 10, u.wordAt (pushAddr (s.get .sp) k) = t.wordAt (pushAddr (s.get .sp) k)) ∧
    PopsFit u.mem.size (s.get .sp) (1 + (u.wordAt (s.get .sp + 2)).toNat) := by
  refine ⟨caller .two 2, _, _, by decide, by unfold PushesFit; decide, by decide, by decide,
    exec_calLit_of_fit _ _ (by unfold PushesFit; decide), rfl, rfl, rfl, fun _ _ => rfl, ?_⟩
  unfold PopsFit; decide
theorem witness_UnassignedIsOneByteNop : (boot 256 []).config.policy = .nop := rfl
theorem witness_EveryInstructionFrame : ∃ t, exec (.addRegReg .r1 .r2) (boot 256 []) = .next t := ⟨_, rfl⟩
theorem witness_OnlyCallsAndReturnMoveFp : ∃ s t : State, s.Inv ∧ step s = .next t ∧ t.get .fp ≠ s.get .fp := by
  refine ⟨boot 256 [0x10, 0x12, 0x34, 0x0B], _, by decide, rfl, by decide⟩
theorem witness_OneOpcodeOneInstruction : decode [0x18, 0x02] = .ok (.pshReg .r1, []) ∧
    decode [0x18, 0x0A, 0x5C] = .ok (.pshReg .sp, [0x5C]) := ⟨rfl, rfl⟩

/-- V-F4: the first step completes, the second faults at the end of Memory. -/
theorem witness_RunEndsByFaultOrHost : ∃ s : State, s.status = .running ∧ (runN 1 s).runEnd = .hostStopped ∧
    (runN 2 s).runEnd = .faulted (.outOfBounds 0x100 .byte .read true 0x100) ∧ (runN 3 s).get .ip = 0x100 :=
  ⟨(boot 256 []).set .ip 0xFF, by decide, by decide, by decide, by decide⟩

/-- A move and then each stop loop: `MOV_LIT_REG 0x0004, ip` and `JMP_NOT_EQ 0x0001, 0x04` at 0x0004. -/
theorem witness_StoppedRunStays : ∃ s t : State, s.mem.size ≤ Config.maxMemSize ∧ StopsAt 4 1 s (runN 1 s) ∧
    t.mem.size ≤ Config.maxMemSize ∧ StopsAt 4 1 t (runN 1 t) :=
  ⟨boot 256 [0x10, 0x00, 0x50, 0x02, 0x10, 0x00, 0x04, 0x00], boot 256 [0x10, 0x00, 0x50, 0x02, 0x15, 0x00, 0x01, 0x04],
    by decide, ⟨rfl, by decide, by decide, ⟨by decide, .inl ⟨0, rfl, bytesAt_of_fin _ _ _ (by decide)⟩⟩, by decide⟩,
    by decide, ⟨rfl, by decide, by decide,
      ⟨by decide, .inr ⟨1, 4, rfl, by decide, bytesAt_of_fin _ _ _ (by decide)⟩⟩, by decide⟩⟩

end Sys2Proof.Tests
end

/-! # Proofs: scope. What a completed step keeps (R7, R32, R50, R51, R245). -/

namespace Sys2Proof.Machine

variable {s t : State}

/-- Effects an instruction may have carry the invariant along: the capacity is the same, the canonical form is kept. -/
theorem Keeps.inv (h : Keeps s t) (hs : s.Inv) : t.Inv := by
  obtain ⟨hmin, hmax, hwf⟩ := hs
  exact ⟨h.size ▸ hmin, h.size ▸ hmax, h.wf hwf⟩

theorem Keeps.controlKept (h : Keeps s t) : ControlKept s t := ⟨h.config, h.status⟩

/-- An instruction that completes keeps what it must. The one meaning `exec_sound` sets apart, an unassigned byte under
the policy `fault`, does not complete (R213). -/
theorem exec_next_keeps {i : Instr} (h : exec i s = .next t) : Keeps s t := by
  rcases exec_sound s i with hsound | ⟨op, rfl, hpolicy⟩
  · rw [h] at hsound
    exact hsound
  · rw [exec_unassigned_fault s op hpolicy] at h
    cases h

/-- A step that completes is a RUNNING engine's, and keeps what an instruction must: a FAULTED engine and a failed fetch
both answer a fault (R87, R97). -/
theorem step_next_keeps (h : step s = .next t) : s.status = .running ∧ Keeps s t := by
  cases hstatus : s.status with
  | faulted rec =>
    rw [step_of_faulted s hstatus] at h
    cases h
  | running =>
    refine ⟨rfl, ?_⟩
    rcases step_of_running s hstatus with ⟨f, -, hstep⟩ | ⟨p, i, -, -, hstep⟩
    · rw [hstep] at h
      cases h
    · exact exec_next_keeps (hstep ▸ h)

/-- Settles O17: a completed step is the meaning of one instruction in a RUNNING engine, and every instruction keeps the
parameters, the status, the capacity and the canonical form. -/
theorem stepKeepsInvariant : Obligations.StepKeepsInvariant := by
  intro s t hinv hstep
  obtain ⟨hrunning, hkeeps⟩ := step_next_keeps hstep
  exact ⟨hkeeps.inv hinv, hkeeps.controlKept, hkeeps.size, hrunning⟩

end Sys2Proof.Machine

/-! # Proofs: state. Registers, construction and the host's requests (R20 to R23, R34, R35, R212, R241 to R245). -/

namespace Sys2Proof.Machine

/-! ## Registers -/

/-- A write of any integer stores it modulo 2^16 (R21). -/
theorem toNat_set_ofInt_get (s : State) (r : Reg) (v : Int) :
    (((s.set r (BitVec.ofInt 16 v)).get r).toNat : Int) = v % 65536 := by
  rw [State.set_get, if_pos rfl, BitVec.toNat_ofInt]
  exact Int.toNat_of_nonneg (Int.emod_nonneg v (by decide))

/-- A write changes no register but the written one (R21). -/
theorem State.set_regsKept (s : State) (r : Reg) (v : Word) : RegsKept [r] s (s.set r v) := fun r' hr' => by
  rw [State.set_get, if_neg (by simpa using hr')]

/-- Settles O5: `resolveReg` is `Reg.ofIndex`, whose index is taken modulo 12. -/
theorem registerOperandModulo12 : Obligations.RegisterOperandModulo12 := by
  refine ⟨fun b => ?_, rfl, rfl, rfl⟩
  have hindex : (resolveReg b).index = b.toNat % 12 := Reg.index_ofIndex b.toNat
  exact ⟨hindex, congrArg (· * 2) hindex⟩

/-- Settles O50: the width is the word's, and the rest is what a register reads as after a write to it and to another. -/
theorem registerReadsLastValueStored : Obligations.RegisterReadsLastValueStored := fun s r v =>
  ⟨(s.get r).isLt, toNat_set_ofInt_get s r v, fun r' w hne =>
    State.set_regsKept _ r' w r (by simpa using hne.symm)⟩

/-! ## Construction -/

theorem construct_of_legal (c : Config) {m : Memory} (hmin : 2 ≤ m.size) (hmax : m.size ≤ 65536) :
    construct c m = .ok (State.constructed c m) := if_pos ⟨hmin, hmax⟩

theorem construct_of_illegal (c : Config) {m : Memory} (h : m.size < 2 ∨ 65536 < m.size) :
    construct c m = .error (.illegalMemSize m.size) :=
  if_neg fun ⟨hmin, hmax⟩ => by
    rw [Config.minMemSize] at hmin
    rw [Config.maxMemSize] at hmax
    omega

theorem constructed_get (c : Config) (m : Memory) (r : Reg) :
    (State.constructed c m).get r = if r = .sp ∨ r = .fp then BitVec.ofNat 16 (m.size - 2) else 0 := by
  cases r <;> rfl

/-- Settles O21: `MEM_SIZE - 2` fits a register where the size is legal, so sp and fp hold it unreduced. -/
theorem constructionResetsTheEngine : Obligations.ConstructionResetsTheEngine := by
  refine fun c m => ⟨fun hmin hmax => ?_, construct_of_illegal c⟩
  have htop : (BitVec.ofNat 16 (m.size - 2)).toNat = m.size - 2 := by
    rw [BitVec.toNat_ofNat]
    exact Nat.mod_eq_of_lt (by omega)
  refine ⟨State.constructed c m, construct_of_legal c hmin hmax, fun r hsp hfp => ?_, ?_, ?_, rfl, rfl, rfl, rfl⟩
  · rw [constructed_get, if_neg (not_or.mpr ⟨hsp, hfp⟩)]
  · rw [constructed_get, if_pos (.inl rfl), htop]
  · rw [constructed_get, if_pos (.inr rfl), htop]

/-- Settles O22: 65536 is a legal size, and the state constructed over a new Memory of that size is the reset state. -/
theorem resetIsConstructionOverNewMemory : Obligations.ResetIsConstructionOverNewMemory :=
  construct_of_legal _ (by decide) (by decide)

/-- Settles O19: the Memory of the reset state is a newly created one of the largest legal size. -/
theorem resetSatisfiesInvariant : Obligations.ResetSatisfiesInvariant :=
  ⟨by decide, by decide, Memory.create_wf Config.resetMemSize⟩

/-! ## Registers by name -/

@[simp] theorem regOfName_regName (r : Reg) : regOfName (regName r) = some r := by
  cases r <;> simp [regOfName, allRegs, regName]

/-- A name that no register has names none (R212). -/
theorem regOfName_of_unknown {name : String} (h : ∀ r, regName r ≠ name) : regOfName name = none :=
  List.find?_eq_none.mpr fun r _ hr => h r (of_decide_eq_true hr)

@[simp] theorem hostGet_regName (r : Reg) (s : State) : hostGet (regName r) s = .ok (s.get r) := by
  rw [hostGet, regOfName_regName]

@[simp] theorem hostSet_regName (r : Reg) (v : Int) (s : State) :
    hostSet (regName r) v s = .ok (s.set r (BitVec.ofInt 16 v)) := by
  rw [hostSet, regOfName_regName]

theorem hostGet_of_unknown {name : String} (h : ∀ r, regName r ≠ name) (s : State) :
    hostGet name s = .error (.unknownRegister name) := by
  rw [hostGet, regOfName_of_unknown h]

theorem hostSet_of_unknown {name : String} (h : ∀ r, regName r ≠ name) (v : Int) (s : State) :
    hostSet name v s = .error (.unknownRegister name) := by
  rw [hostSet, regOfName_of_unknown h]

/-- Settles O23: the 12 names are looked up to their registers, any other name to none, and the status is not asked. -/
theorem hostGetsAndSetsRegisters : Obligations.HostGetsAndSetsRegisters := fun s v =>
  ⟨fun r => ⟨hostGet_regName r s, s.set r (BitVec.ofInt 16 v), hostSet_regName r v s, toNat_set_ofInt_get s r v,
      State.set_regsKept s r _, rfl, ⟨rfl, rfl⟩, rfl, fun _ => rfl⟩,
    fun _ hname => ⟨hostGet_of_unknown hname s, hostSet_of_unknown hname v s⟩⟩

end Sys2Proof.Machine

/-! # Proofs: frame. The state each instruction leaves when it completes, and what of it is unchanged (R24, R29, R31,
R60, R180). -/

namespace Sys2Proof.Machine

variable (ip0 : Word) (s : State)

/-! ## Operations of several accesses: the closed form or a fault -/

/-- Pushing words answers `pushedAll` or a fault. -/
theorem pushWords_cases (vs : List Word) :
    pushWords ip0 vs s = .ok (s.pushedAll vs) ∨ ∃ f, pushWords ip0 vs s = .error f := by
  induction vs generalizing s with
  | nil => exact .inl rfl
  | cons v vs ih =>
    rw [pushWords]
    rcases push_cases ip0 v s with h | ⟨f, h⟩ <;> rw [h]
    · exact ih (s.pushed v)
    · exact .inr ⟨f, rfl⟩

/-- The call prologue answers `entered` or a fault (R181). -/
theorem pushState_cases : pushState ip0 s = .ok s.entered ∨ ∃ f, pushState ip0 s = .error f := by
  rw [pushState_eq_pushWords]
  rcases pushWords_cases ip0 s (frameWords s) with h | ⟨f, h⟩ <;> rw [h]
  · left
    rw [ok_bind, State.pushedAll_sp]
    rfl
  · exact .inr ⟨f, rfl⟩

/-- Of pops that do not all fit, one is the first that does not. -/
theorem exists_first_unfit_pop {size n : Nat} {a : Word} (h : ¬ PopsFit size a n) :
    ∃ k < n, PopsFit size a k ∧ size < (popAddr a k).toNat + 2 := by
  have hex : ∃ k, k < n ∧ size < (popAddr a k).toNat + 2 := by
    simpa only [PopsFit, not_forall, not_le, exists_prop] using h
  obtain ⟨hlt, hbad⟩ := Nat.find_spec hex
  refine ⟨Nat.find hex, hlt, fun j hj => ?_, hbad⟩
  have := Nat.find_min hex hj
  omega

/-- The call epilogue answers `returned` or a fault (R182). -/
theorem popState_cases : popState ip0 s = .ok s.returned ∨ ∃ f, popState ip0 s = .error f := by
  by_cases h : PopsFit s.mem.size (s.get .fp) (11 + (s.wordAt (popAddr (s.get .fp) 10)).toNat)
  · exact .inl (popState_of_fit ip0 s h)
  · obtain ⟨k, hk, hfit, hbad⟩ := exists_first_unfit_pop h
    obtain ⟨t, ht, -⟩ := popState_of_unfit ip0 s k hk hfit hbad
    exact .inr ⟨_, ht⟩

/-! ## The state an instruction leaves -/

/-- The state an instruction leaves when it completes; `exec_cases` says so. -/
def State.completed (s : State) : Instr → State
  | .movLitReg lit d => (s.advance 4).set d lit
  | .movRegReg src d => (s.advance 3).set d (sourceValue s 3 src)
  | .movRegMem src a => (s.advance 4).setMem (s.mem.setWord a.toNat (sourceValue s 4 src))
  | .movMemReg a d => (s.advance 4).set d (s.wordAt a)
  | .addRegReg x y => (s.advance 3).set .acc (sourceValue s 3 x + sourceValue s 3 y)
  | .jmpNotEq lit t => if lit = s.get .acc then s.advance 4 else (s.advance 4).set .ip (zeroExtend16 t)
  | .pshLit lit => (s.advance 3).pushed lit
  | .pshReg src => (s.advance 2).pushed (sourceValue s 2 src)
  | .popReg d => (s.advance 2).popped.set d (s.wordAt (s.get .sp + 2))
  | .calLit target => (s.advance 3).entered.set .ip target
  | .calReg src => (s.advance 2).entered.set .ip (sourceValue s 2 src)
  | .ret => (s.advance 1).returned
  | .unassigned _ => s.advance 1

/-- An operation that answers one state or a fault settles to that state's completion or to a fault. -/
theorem settle_cases {x : Except Fault State} {t : State} (h : x = .ok t ∨ ∃ f, x = .error f) :
    settle x = .next t ∨ ∃ f, settle x = .fault f := by
  rcases h with rfl | ⟨f, rfl⟩
  · exact .inl rfl
  · exact .inr ⟨f, rfl⟩

/-- An operation that answers one state or a fault, followed by one that cannot fail, does the same. -/
theorem bind_ok_cases {α β : Type} {x : Except Fault α} {a : α} (g : α → β) (h : x = .ok a ∨ ∃ f, x = .error f) :
    (x >>= fun b => Except.ok (g b)) = .ok (g a) ∨ ∃ f, (x >>= fun b => Except.ok (g b)) = .error f := by
  rcases h with rfl | ⟨f, rfl⟩
  · exact .inl rfl
  · exact .inr ⟨f, rfl⟩

/-- Every instruction completes with the state `completed` gives, or faults. -/
theorem exec_cases (i : Instr) : exec i s = .next (s.completed i) ∨ ∃ f, exec i s = .fault f := by
  cases i with
  | movLitReg lit d => exact .inl rfl
  | movRegReg src d => exact .inl (by simp [exec, execMovRegReg, State.completed, State.dest])
  | movRegMem src a =>
    by_cases h : a.toNat + 2 ≤ s.mem.size
    · exact .inl (exec_movRegMem_of_inBounds s a src h)
    · exact .inr ⟨_, exec_movRegMem_of_outOfBounds s a src (by omega)⟩
  | movMemReg a d =>
    by_cases h : a.toNat + 2 ≤ s.mem.size
    · exact .inl (exec_movMemReg_of_inBounds s a d h)
    · exact .inr ⟨_, exec_movMemReg_of_outOfBounds s a d (by omega)⟩
  | addRegReg x y => exact .inl (by simp [exec, execAddRegReg, State.completed, State.dest, sum16])
  | jmpNotEq lit t => exact .inl (exec_jmpNotEq s lit t)
  | pshLit lit => exact settle_cases (push_cases _ _ _)
  | pshReg src =>
    simp only [exec, execPshReg, source_advance]
    exact settle_cases (push_cases _ _ _)
  | popReg d =>
    by_cases h : (s.get .sp + 2).toNat + 2 ≤ s.mem.size
    · exact .inl (exec_popReg_of_inBounds s d h)
    · exact .inr ⟨_, exec_popReg_of_outOfBounds s d (by omega)⟩
  | calLit target => exact settle_cases (bind_ok_cases (State.set · .ip target) (pushState_cases _ _))
  | calReg src =>
    simp only [exec, execCalReg, source_advance]
    exact settle_cases (bind_ok_cases (State.set · .ip (sourceValue s 2 src)) (pushState_cases _ _))
  | ret => exact settle_cases (popState_cases _ _)
  | unassigned op =>
    cases h : s.config.policy with
    | nop => exact .inl (exec_unassigned_nop s op h)
    | fault => exact .inr ⟨_, exec_unassigned_fault s op h⟩

theorem eq_completed_of_exec {s t : State} {i : Instr} (h : exec i s = .next t) : t = s.completed i := by
  rcases exec_cases s i with hnext | ⟨f, hfault⟩
  · rw [hnext] at h
    cases h
    rfl
  · rw [hfault] at h
    cases h

/-! ## What `completed` leaves unchanged -/

theorem completed_regsKept (i : Instr) : RegsKept (writtenRegs i) s (s.completed i) := by
  intro r hr
  cases i with
  | jmpNotEq lit t =>
    simp only [writtenRegs, List.mem_singleton] at hr
    simp only [State.completed]
    split <;> simp [hr]
  | ret =>
    -- acc is the one register RET does not write
    cases r <;> simp [writtenRegs] at hr
    simp [State.completed, State.returned_get]
  | _ =>
    simp only [writtenRegs, List.mem_cons, List.not_mem_nil, or_false, not_or] at hr
    simp [State.completed, hr]

theorem completed_sfc (i : Instr) : (s.completed i).sfc = counterAfter i s := by
  cases i with
  | jmpNotEq lit t =>
    simp only [State.completed]
    split <;> rfl
  | ret => simp [State.completed, State.returned_sfc, counterAfter]
  | _ => simp [State.completed, counterAfter]

/-- A word stored at `a` leaves every byte outside it. -/
theorem setWord_byteAt_of_outside (m : Memory) (v : Word) {a : Word} {b : Nat}
    (h : ∀ w ∈ [a], b ≠ w.toNat ∧ b ≠ w.toNat + 1) : (m.setWord a.toNat v).byteAt b = m.byteAt b := by
  obtain ⟨hhi, hlo⟩ := h a (List.mem_singleton_self a)
  exact Memory.setWord_byteAt_of_ne _ _ _ _ hhi hlo

/-- A call instruction's prologue leaves every byte outside the ten frame words (R181). -/
theorem entered_advance_byteAt_of_outside (n : Nat) {b : Nat}
    (h : ∀ w ∈ (List.range 10).map (pushAddr (s.get .sp)), b ≠ w.toNat ∧ b ≠ w.toNat + 1) :
    (s.advance n).entered.byteAt b = s.byteAt b := by
  rw [State.byteAt, State.entered_mem]
  refine Memory.setWordsDown_byteAt_of_apart _ _ _ _ fun k hk => h _ (List.mem_map.mpr ⟨k, List.mem_range.mpr hk, ?_⟩)
  simp

theorem completed_byteAt_of_outside (i : Instr) (b : Nat)
    (h : ∀ w ∈ storedWords i s, b ≠ w.toNat ∧ b ≠ w.toNat + 1) : (s.completed i).byteAt b = s.byteAt b := by
  cases i with
  | movRegMem src a => exact setWord_byteAt_of_outside s.mem _ h
  | pshLit lit => exact setWord_byteAt_of_outside s.mem lit h
  | pshReg src => exact setWord_byteAt_of_outside s.mem _ h
  | calLit target => exact entered_advance_byteAt_of_outside s 3 h
  | calReg src => exact entered_advance_byteAt_of_outside s 2 h
  | jmpNotEq lit t =>
    simp only [State.completed]
    split <;> rfl
  | _ => rfl

/-- Settles O48: a completed instruction leaves `completed`, of which each part is read off; the parameters, the status and
the capacity are what every instruction keeps. -/
theorem everyInstructionFrame : Obligations.EveryInstructionFrame := by
  intro i s t h
  have hkeeps := exec_next_keeps h
  obtain rfl := eq_completed_of_exec h
  exact ⟨completed_regsKept s i, hkeeps.controlKept, hkeeps.size, completed_sfc s i, completed_byteAt_of_outside s i⟩

/-! ## The bytes a fetch answers stand at ip -/

theorem bytesAt_singleton {a : Word} (h : a.toNat < s.mem.size) : BytesAt a [s.byteAt a.toNat] s := by
  intro k hk
  obtain rfl : k = 0 := by simpa using hk
  simpa using h

theorem BytesAt.append {s : State} {a : Word} {bs cs : List Byte} (hbs : BytesAt a bs s)
    (hcs : BytesAt (a + BitVec.ofNat 16 bs.length) cs s) : BytesAt a (bs ++ cs) s := by
  intro k hk
  by_cases hlt : k < bs.length
  · rw [List.getElem_append_left hlt]
    exact hbs k hlt
  · obtain ⟨j, rfl⟩ := Nat.exists_eq_add_of_le (Nat.le_of_not_lt hlt)
    rw [List.length_append] at hk
    have := hcs j (by omega)
    rw [BitVec.add_assoc, ← BitVec.ofNat_add] at this
    simpa using this

/-- A word that is one access inside the capacity does not wrap, so its bytes stand at `a` and `a + 1` (R57). -/
theorem bytesAt_word {a : Word} (hsize : s.mem.size ≤ Config.maxMemSize) (h : a.toNat + 2 ≤ s.mem.size) :
    BytesAt a [hiByte (s.wordAt a), loByte (s.wordAt a)] s := by
  have hnext : (a + 1).toNat = a.toNat + 1 := by
    rw [Config.maxMemSize] at hsize
    bv_omega
  rw [State.wordAt, Memory.wordAt, hiByte_joinBytes, loByte_joinBytes, ← hnext]
  exact (bytesAt_singleton s (by omega)).append (bytesAt_singleton s (a := a + 1) (by omega))

/-- What a fetch answers: bytes that stand at ip, and ip past them (R80). -/
def FetchedAtIp (s : State) (p : List Byte × State) : Prop :=
  BytesAtIp p.1 s ∧ p.2 = s.advance p.1.length

variable {ip0 s}

theorem FetchedAtIp.mem_eq {p : List Byte × State} (h : FetchedAtIp s p) : p.2.mem = s.mem := by
  rw [h.2, State.advance_mem]

/-- Two fetches one after the other answer the bytes of both. -/
theorem FetchedAtIp.append {p q : List Byte × State} (hp : FetchedAtIp s p) (hq : FetchedAtIp p.2 q) :
    FetchedAtIp s (p.1 ++ q.1, q.2) := by
  obtain ⟨hpbytes, hpafter⟩ := hp
  obtain ⟨hqbytes, hqafter⟩ := hq
  rw [hpafter] at hqbytes hqafter
  rw [BytesAtIp, State.advance_get, if_pos rfl] at hqbytes
  refine ⟨hpbytes.append hqbytes, ?_⟩
  rw [hqafter, State.advance_advance, List.length_append]

theorem fetchByte_answers {b : Byte} {t : State} (h : fetchByte ip0 s = .ok (b, t)) : FetchedAtIp s ([b], t) := by
  by_cases hb : (s.get .ip).toNat < s.mem.size
  · rw [fetchByte_of_inBounds ip0 s hb] at h
    cases h
    exact ⟨bytesAt_singleton s hb, rfl⟩
  · rw [fetchByte_of_outOfBounds ip0 s (by omega)] at h
    cases h

theorem fetchWord_answers {w : Word} {t : State} (hsize : s.mem.size ≤ Config.maxMemSize)
    (h : fetchWord ip0 s = .ok (w, t)) : FetchedAtIp s ([hiByte w, loByte w], t) := by
  by_cases hb : (s.get .ip).toNat + 2 ≤ s.mem.size
  · rw [fetchWord_of_inBounds ip0 s hb] at h
    cases h
    exact ⟨bytesAt_word s hsize hb, rfl⟩
  · rw [fetchWord_of_outOfBounds ip0 s (by omega)] at h
    cases h

/-- An operation that answers is a first part that answers and a rest that answers from there. -/
theorem exists_ok_of_bind_eq_ok {α β : Type} {x : Except Fault α} {g : α → Except Fault β} {b : β}
    (h : (x >>= g) = .ok b) : ∃ a, x = .ok a ∧ g a = .ok b := by
  cases x with
  | error f => cases h
  | ok a => exact ⟨a, rfl, h⟩

theorem fetchOperand_answers {k : OperandKind} {p : List Byte × State} (hsize : s.mem.size ≤ Config.maxMemSize)
    (h : fetchOperand ip0 k s = .ok p) : FetchedAtIp s p := by
  have byte (h : (fetchByte ip0 s >>= fun q => Except.ok ([q.1], q.2)) = .ok p) : FetchedAtIp s p := by
    obtain ⟨q, hq, hp⟩ := exists_ok_of_bind_eq_ok h
    cases hp
    exact fetchByte_answers hq
  have word (h : (fetchWord ip0 s >>= fun q => Except.ok ([hiByte q.1, loByte q.1], q.2)) = .ok p) :
      FetchedAtIp s p := by
    obtain ⟨q, hq, hp⟩ := exists_ok_of_bind_eq_ok h
    cases hp
    exact fetchWord_answers hsize hq
  cases k with
  | register => exact byte h
  | literal16 => exact word h
  | address16 => exact word h
  | address8 => exact byte h

theorem fetchOperands_answers {ks : List OperandKind} {p : List Byte × State} (hsize : s.mem.size ≤ Config.maxMemSize)
    (h : fetchOperands ip0 ks s = .ok p) : FetchedAtIp s p := by
  induction ks generalizing s p with
  | nil =>
    cases h
    refine ⟨fun k hk => absurd hk (Nat.not_lt_zero k), State.eq_of_get_eq (fun r => ?_) rfl rfl rfl rfl⟩
    by_cases hr : r = .ip <;> simp [hr]
  | cons k ks ih =>
    obtain ⟨q, hq, h⟩ := exists_ok_of_bind_eq_ok h
    obtain ⟨q', hq', h⟩ := exists_ok_of_bind_eq_ok h
    cases h
    have hfirst := fetchOperand_answers hsize hq
    exact hfirst.append (ih (hfirst.mem_eq ▸ hsize) hq')

/-- The bytes of a fetched instruction stand at ip (R80, R86). -/
theorem fetchInstr_answers {p : List Byte × State} (hsize : s.mem.size ≤ Config.maxMemSize)
    (h : fetchInstr s = .ok p) : FetchedAtIp s p := by
  obtain ⟨⟨op, t⟩, hop, h⟩ := exists_ok_of_bind_eq_ok h
  obtain ⟨q, hq, h⟩ := exists_ok_of_bind_eq_ok h
  cases h
  have hfirst := fetchByte_answers hop
  exact hfirst.append (fetchOperands_answers (hfirst.mem_eq ▸ hsize) hq)

/-! ## Which steps move fp -/

/-- A completed step is an instruction that the bytes at ip decode to, run to completion (R80, R87). -/
theorem step_next_inv {t : State} (hsize : s.mem.size ≤ Config.maxMemSize) (h : step s = .next t) :
    ∃ bytes i, BytesAtIp bytes s ∧ decode bytes = .ok (i, []) ∧ exec i s = .next t := by
  obtain ⟨hrunning, -⟩ := step_next_keeps h
  rcases step_of_running s hrunning with ⟨f, -, hstep⟩ | ⟨p, i, hfetch, hdecode, hstep⟩
  · rw [hstep] at h
    cases h
  · exact ⟨p.1, i, (fetchInstr_answers hsize hfetch).1, hdecode, hstep ▸ h⟩

/-- The instructions that may write fp (R28, R180). -/
theorem eq_of_fp_mem_writtenRegs {i : Instr} (h : .fp ∈ writtenRegs i) :
    i = .ret ∨ (∃ a, i = .calLit a) ∨ (∃ r, i = .calReg r) ∨ (∃ l, i = .movLitReg l .fp) ∨
      (∃ r, i = .movRegReg r .fp) ∨ (∃ a, i = .movMemReg a .fp) ∨ i = .popReg .fp := by
  cases i with
  | ret => exact .inl rfl
  | calLit a => exact .inr (.inl ⟨a, rfl⟩)
  | calReg r => exact .inr (.inr (.inl ⟨r, rfl⟩))
  | movLitReg | movRegReg | movMemReg | popReg => simpa [writtenRegs, eq_comm] using h
  | _ => simp [writtenRegs] at h

/-- Settles O49: fp can change only where the frame of O48 lists it as written. -/
theorem onlyCallsAndReturnMoveFp : Obligations.OnlyCallsAndReturnMoveFp := by
  intro s t ⟨_, hmax, _⟩ hstep hfp
  obtain ⟨bytes, i, hbytes, hdecode, hexec⟩ := step_next_inv hmax hstep
  refine ⟨bytes, i, [], hbytes, hdecode, eq_of_fp_mem_writtenRegs ?_⟩
  by_contra hnot
  obtain ⟨hregs, -⟩ := everyInstructionFrame i s t hexec
  exact hfp (hregs .fp hnot)

end Sys2Proof.Machine

/-! # Proofs: memory. Accesses and the canonical form, the host's writes, and what a fault says and leaves (R50 to R58,
R84, R96, R211, R214, R244). -/

namespace Sys2Proof.Machine

/-! ## Word accesses -/

/-- Settles O26: an access inside the capacity answers the two bytes joined, one outside it raises the fault. -/
theorem wordReadIsBigEndian : Obligations.WordReadIsBigEndian := fun s fetch ip0 addr =>
  ⟨fun hout => ⟨_, readWord_of_outOfBounds fetch ip0 addr s hout, State.raise_record _ _, State.raise_after _ _⟩,
    fun hin => ⟨s.wordAt addr, readWord_of_inBounds fetch ip0 addr s hin, joinBytes_toNat _ _⟩⟩

/-- A word write inside the capacity changes no byte but its two (R54). -/
theorem setMem_setWord_memoryKeptOutside (s : State) (addr v : Word) :
    MemoryKeptOutside addr s (s.setMem (s.mem.setWord addr.toNat v)) :=
  ⟨rfl, fun _ hhi hlo => Memory.setWord_byteAt_of_ne _ _ _ _ hhi hlo⟩

/-- Settles O27: a write inside the capacity is `setWord`, whose bytes are the word's halves; one outside it raises the
fault in the state it started from. -/
theorem wordWriteIsBigEndian : Obligations.WordWriteIsBigEndian := by
  refine fun s ip0 addr v hwf => ⟨fun hout => ?_, fun hin => ?_⟩
  · exact ⟨_, writeWord_of_outOfBounds ip0 addr v s hout, State.raise_record _ _, State.raise_after _ _⟩
  · refine ⟨_, writeWord_of_inBounds ip0 addr v s hin, Memory.setWord_wf _ _ _ hwf hin, ?_, ?_,
      Memory.setWord_wordAt _ _ _ hwf hin, setMem_setWord_memoryKeptOutside s addr v, fun _ _ => rfl, rfl, rfl, rfl⟩
    · rw [State.setMem_byteAt, Memory.setWord_byteAt_hi _ _ _ hwf, hiByte_toNat]
    · rw [State.setMem_byteAt, Memory.setWord_byteAt_lo _ _ _ hwf hin, loByte_toNat]

/-! ## The canonical form is determined by the bytes -/

/-- In canonical form the cells are exactly the bytes that differ from 0x00. -/
theorem mem_cells_iff {l : List Host.Cell} (hsorted : l.Pairwise fun c d => c.1 < d.1)
    (hwritten : ∀ c ∈ l, c.2 ≠ unwrittenByte) (c : Host.Cell) :
    c ∈ l ↔ readCells l c.1 = c.2 ∧ c.2 ≠ unwrittenByte := by
  induction l with
  | nil => exact ⟨nofun, fun ⟨hread, hne⟩ => absurd hread.symm hne⟩
  | cons d rest ih =>
    obtain ⟨k, w⟩ := d
    obtain ⟨a, v⟩ := c
    obtain ⟨hbelow, hrest⟩ := List.pairwise_cons.mp hsorted
    have hw : w ≠ unwrittenByte := hwritten _ List.mem_cons_self
    have hmem := ih hrest fun c hc => hwritten c (List.mem_cons_of_mem _ hc)
    rw [List.mem_cons, readCells]
    by_cases hk : k = a
    · subst hk
      have hnot : (k, v) ∉ rest := fun hin => lt_irrefl k (hbelow _ hin)
      simp only [hnot, or_false, if_true, Prod.mk.injEq, true_and]
      exact ⟨fun h => ⟨h.symm, h ▸ hw⟩, fun h => h.1.symm⟩
    · rw [if_neg hk, ← hmem]
      simp [Ne.symm hk]

/-- Settles O20: the cells of both are the bytes that differ from 0x00, and a strictly rising list is determined by its
members. -/
theorem equalBytesEqualMemories : Obligations.EqualBytesEqualMemories := by
  rintro ⟨size, l⟩ ⟨_, l'⟩ ⟨hsorted, hcells⟩ ⟨hsorted', hcells'⟩ rfl hbytes
  have hl : l = l' := hsorted.eq_of_mem_iff hsorted' fun c => by
    rw [mem_cells_iff hsorted (fun c hc => (hcells c hc).2), mem_cells_iff hsorted' (fun c hc => (hcells' c hc).2),
      show readCells l c.1 = readCells l' c.1 from hbytes c.1]
  rw [hl]

/-! ## The host's writes -/

theorem hostInBounds_byte (m : Memory) (addr : Int) : m.hostInBounds addr .byte = true ↔ 0 ≤ addr ∧ addr + 1 ≤ m.size := by
  simp [Memory.hostInBounds, AccessSize.bytes]

/-- A byte write of the host inside the capacity stores `v mod 2^8` (R55). -/
theorem hostWriteByte_of_inBounds {m : Memory} {addr : Int} (v : Int) (hmin : 0 ≤ addr) (hmax : addr + 1 ≤ m.size) :
    hostWriteByte addr v m = .ok (m.setByte addr.toNat (BitVec.ofInt 8 v)) :=
  if_pos ((hostInBounds_byte m addr).mpr ⟨hmin, hmax⟩)

/-- A byte write of the host outside the capacity is refused (R56). -/
theorem hostWriteByte_of_outOfBounds {m : Memory} {addr : Int} (v : Int) (h : addr < 0 ∨ m.size < addr + 1) :
    hostWriteByte addr v m = .error (.outOfBounds addr .byte .write) :=
  if_neg fun hin => by
    obtain ⟨hmin, hmax⟩ := (hostInBounds_byte m addr).mp hin
    omega

/-- Settles O25: inside the capacity the write is `setByte` with `v mod 2^8`. -/
theorem hostWritesOneByte : Obligations.HostWritesOneByte := by
  refine fun m addr v hwf => ⟨fun hmin hmax => ?_, hostWriteByte_of_outOfBounds v⟩
  refine ⟨_, hostWriteByte_of_inBounds v hmin hmax, rfl, Memory.setByte_wf _ _ _ hwf (by omega), ?_,
    fun a ha => Memory.setByte_byteAt_of_ne _ _ _ _ ha⟩
  rw [Memory.setByte_byteAt_same _ _ _ hwf, BitVec.toNat_ofInt]
  exact Int.toNat_of_nonneg (Int.emod_nonneg v (by decide))

/-- Loading an image that fits stores its bytes from `a` on and leaves every other byte as it was (R244). -/
theorem hostLoad_of_fit {m : Memory} {a : Nat} (image : List Byte) (hwf : m.wf) (hfit : a + image.length ≤ m.size) :
    ∃ m', hostLoad a image m = .ok m' ∧ m'.size = m.size ∧ m'.wf ∧
      ∀ b, m'.byteAt b = if b < a then m.byteAt b else image.getD (b - a) (m.byteAt b) := by
  induction image generalizing m a with
  | nil => exact ⟨m, rfl, rfl, hwf, fun b => by simp⟩
  | cons c image ih =>
    rw [List.length_cons] at hfit
    have hwrite : hostWriteByte a c.toNat m = .ok (m.setByte a c) := by
      rw [hostWriteByte_of_inBounds _ (by omega) (by omega), BitVec.ofInt_natCast, BitVec.ofNat_toNat,
        BitVec.setWidth_eq, Int.toNat_natCast]
    obtain ⟨m', hload, hsize, hwf', hbytes⟩ :=
      ih (m := m.setByte a c) (a := a + 1) (Memory.setByte_wf m a c hwf (by omega)) (by rw [Memory.setByte_size]; omega)
    refine ⟨m', by rw [hostLoad, hwrite]; exact hload, hsize, hwf', fun b => ?_⟩
    rw [hbytes]
    rcases Nat.lt_trichotomy b a with hlt | rfl | hgt
    · rw [if_pos (by omega), if_pos hlt, Memory.setByte_byteAt_of_ne _ _ _ _ (by omega)]
    · simp [Memory.setByte_byteAt_same m b c hwf]
    · obtain ⟨j, rfl⟩ := Nat.exists_eq_add_of_lt hgt
      rw [if_neg (by omega), if_neg (by omega), Memory.setByte_byteAt_of_ne _ _ _ _ (by omega),
        show a + j + 1 - (a + 1) = j by omega, show a + j + 1 - a = j + 1 by omega, List.getD_cons_succ]

/-- Settles O24: a new Memory is 0x00 at every address, so what the load does not write reads 0x00. -/
theorem loaderWritesTheImage : Obligations.LoaderWritesTheImage := by
  refine fun size image => ⟨fun _ => rfl, fun hfit => ?_⟩
  obtain ⟨m, hload, hsize, hwf, hbytes⟩ :=
    hostLoad_of_fit (a := 0) image (Memory.create_wf size) (by rw [Memory.create_size]; omega)
  exact ⟨m, hload, hsize, hwf, fun a => by simpa using hbytes a⟩

/-! ## How a step faults -/

/-- `f` is the fault of an unassigned opcode byte at ip under the policy `fault`, raised one byte further (R213). -/
def UnknownOpcodeFault (s : State) (f : Fault) : Prop :=
  ∃ op, f = (s.advance 1).raise (.unknownOpcode op (s.get .ip)) ∧ s.config.policy = .fault ∧ Opcode.ofByte op = none ∧
    s.byteAt (s.get .ip).toNat = op

/-- The first fetched byte is the one at ip (R83). -/
theorem fetchInstr_head {s : State} {p : List Byte × State} (h : fetchInstr s = .ok p) :
    ∃ rest, p.1 = s.byteAt (s.get .ip).toNat :: rest := by
  obtain ⟨⟨op, t⟩, hop, h⟩ := exists_ok_of_bind_eq_ok h
  obtain ⟨q, -, h⟩ := exists_ok_of_bind_eq_ok h
  cases h
  by_cases hb : (s.get .ip).toNat < s.mem.size
  · rw [fetchByte_of_inBounds _ s hb] at hop
    cases hop
    exact ⟨q.1, rfl⟩
  · rw [fetchByte_of_outOfBounds _ s (by omega)] at hop
    cases hop

/-- No operands make an assigned opcode decode to `unassigned` (R88). -/
theorem decodeOperands_ne_unassigned (o : Opcode) (bytes rest : List Byte) (op : Byte) :
    decodeOperands o bytes ≠ .ok (.unassigned op, rest) := by
  intro h
  unfold decodeOperands at h
  split at h <;> cases h

/-- Only an unassigned byte decodes to `unassigned`, and to that of itself (R89). -/
theorem decode_eq_unassigned {b op : Byte} {bytes rest : List Byte} (h : decode (b :: bytes) = .ok (.unassigned op, rest)) :
    b = op ∧ Opcode.ofByte op = none := by
  rw [decode] at h
  split at h
  · exact absurd h (decodeOperands_ne_unassigned _ _ _ _)
  · next hb =>
    cases h
    exact ⟨rfl, hb⟩

/-- A RUNNING engine's step faults in an access outside the capacity, of a fetch or of the instruction, or at an
unassigned opcode byte under the policy `fault` (R210). -/
theorem step_fault_cases {s : State} {f : Fault} (hrunning : s.status = .running) (h : step s = .fault f) :
    OutOfBoundsFault (s.get .ip) s f ∨ UnknownOpcodeFault s f := by
  rcases step_of_running s hrunning with ⟨g, hfetch, hstep⟩ | ⟨p, i, hfetch, hdecode, hstep⟩
  · have hsound := fetchInstr_sound s
    rw [hfetch] at hsound
    cases hstep.symm.trans h
    exact .inl hsound
  · rcases exec_sound s i with hsound | ⟨op, rfl, hpolicy⟩
    · rw [← hstep, h] at hsound
      exact .inl hsound
    · rw [hstep, exec_unassigned_fault s op hpolicy] at h
      cases h
      obtain ⟨rest, hhead⟩ := fetchInstr_head hfetch
      rw [hhead] at hdecode
      obtain ⟨hbyte, hunassigned⟩ := decode_eq_unassigned hdecode
      exact .inr ⟨op, rfl, hpolicy, hunassigned, hbyte⟩

/-- Settles O14: each way a step faults raises its record, with the opcode's address, in the state it has reached. -/
theorem faultRecordIsTrue : Obligations.FaultRecordIsTrue := by
  intro s f hrunning hstep
  rcases step_fault_cases hrunning hstep with
    ⟨t, addr, size, kind, fetch, -, rfl, hbound⟩ | ⟨op, rfl, hpolicy, hunassigned, hbyte⟩
  · exact ⟨rfl, .inl ⟨addr, size, kind, fetch, rfl, hbound⟩⟩
  · exact ⟨rfl, .inr ⟨op, rfl, hpolicy, hunassigned, hbyte, rfl⟩⟩

/-- A fault of a RUNNING engine is raised in a state reached by effects an instruction may have (R214). -/
theorem step_fault_raised {s : State} {f : Fault} (hrunning : s.status = .running) (h : step s = .fault f) :
    ∃ t rec, Keeps s t ∧ f = t.raise rec := by
  rcases step_fault_cases hrunning h with ⟨t, addr, size, kind, fetch, hkeeps, hf, -⟩ | ⟨op, hf, -⟩
  · exact ⟨t, _, hkeeps, hf⟩
  · exact ⟨s.advance 1, _, (Keeps.refl s).advance 1, hf⟩

/-- Settles O18: a FAULTED engine's step leaves the state as it was; a RUNNING one's fault only sets the status of a state
that keeps the invariant. -/
theorem faultKeepsInvariant : Obligations.FaultKeepsInvariant := by
  intro s f hinv hstep
  cases hstatus : s.status with
  | faulted rec =>
    rw [step_of_faulted s hstatus] at hstep
    cases hstep
    rw [Fault.ofRecord_after]
    exact ⟨hinv, rfl, rfl⟩
  | running =>
    obtain ⟨t, rec, hkeeps, rfl⟩ := step_fault_raised hstatus hstep
    rw [State.raise_after]
    exact ⟨hkeeps.inv hinv, hkeeps.config, hkeeps.size⟩

/-! ## A word operand that leaves the capacity -/

/-- A step whose opcode byte is fetched and whose operands are not faults as their fetch does (R86). -/
theorem step_of_fetchOperands_error {s : State} {f : Fault} (hrunning : s.status = .running)
    (hop : (s.get .ip).toNat < s.mem.size)
    (h : fetchOperands (s.get .ip) (operandsOf (s.byteAt (s.get .ip).toNat)) (s.advance 1) = .error f) :
    step s = .fault f := by
  have hfetch : fetchInstr s = .error f := by
    rw [fetchInstr, fetchByte_of_inBounds _ s hop, ok_bind]
    simp only [h, error_bind]
  simp only [step, cycle, hrunning, hfetch]

/-- The fetch of operands faults at a word operand whose access leaves the capacity (R84). -/
theorem fetchOperands_of_unfit_word (ip0 : Word) {s : State} {k : OperandKind} (later : List OperandKind)
    (hword : k.size = 2) (hout : s.mem.size < (s.get .ip).toNat + 2) :
    fetchOperands ip0 (k :: later) s = .error (s.raise (.outOfBounds (s.get .ip) .word .read true ip0)) := by
  cases k with
  | register => cases hword
  | address8 => cases hword
  | literal16 => rw [fetchOperands, fetchOperand, fetchWord_of_outOfBounds ip0 s hout, error_bind, error_bind]
  | address16 => rw [fetchOperands, fetchOperand, fetchWord_of_outOfBounds ip0 s hout, error_bind, error_bind]

/-- An operand that fits is fetched, and the fetch of the later ones faults from where it left ip (R83, R84). -/
theorem fetchOperands_cons_error (ip0 : Word) {s : State} {k : OperandKind} {later : List OperandKind} {f : Fault}
    (hfit : (s.get .ip).toNat + k.size ≤ s.mem.size) (h : fetchOperands ip0 later (s.advance k.size) = .error f) :
    fetchOperands ip0 (k :: later) s = .error f := by
  rw [fetchOperands, fetchOperand_of_fit ip0 s k hfit, ok_bind]
  simp only [h, error_bind]

/-- The five opcode bytes whose first operand is a word (R88). -/
theorem operandsOf_word_first {op : Byte} (h : op ∈ ([0x10, 0x13, 0x15, 0x17, 0x5A] : List Byte)) :
    ∃ k later, operandsOf op = k :: later ∧ k.size = 2 := by
  simp only [List.mem_cons, List.not_mem_nil, or_false] at h
  rcases h with rfl | rfl | rfl | rfl | rfl <;> exact ⟨_, _, rfl, rfl⟩

/-- Settles O10: `MEM_SIZE` is at most 65536, so the address of the last byte is not reduced and the word access there
leaves the capacity. -/
theorem wordOperandNeverWraps : Obligations.WordOperandNeverWraps := by
  rintro s hrunning ⟨-, hmax, -⟩
  rw [Config.maxMemSize] at hmax
  refine ⟨fun hop hlast => ?_, fun hop hlast => ?_⟩
  · obtain ⟨k, later, hoperands, hword⟩ := operandsOf_word_first hop
    have hout : s.mem.size < (s.get .ip + 1).toNat + 2 := by bv_omega
    refine ⟨_, step_of_fetchOperands_error hrunning (by omega) ?_, State.raise_record _ _, State.raise_after _ _⟩
    rw [hoperands]
    exact fetchOperands_of_unfit_word _ later hword hout
  · have hout : s.mem.size < (s.get .ip + 2).toNat + 2 := by bv_omega
    have hregister : ((s.advance 1).get .ip).toNat + OperandKind.register.size ≤ (s.advance 1).mem.size := by
      rw [State.advance_get, if_pos rfl, State.advance_mem, OperandKind.size]
      bv_omega
    refine ⟨_, step_of_fetchOperands_error hrunning (by omega) ?_, State.raise_record _ _, State.raise_after _ _⟩
    rw [hop]
    apply fetchOperands_cons_error _ hregister
    rw [State.advance_advance]
    exact fetchOperands_of_unfit_word _ [] rfl hout

end Sys2Proof.Machine

/-! # Proofs: encoding. The decoder and the encoder, the fetch, and the step around an instruction (R80 to R97). -/

namespace Sys2Proof

/-! ## The opcode byte -/

/-- The unassigned bytes are those outside the table (R88, R89). -/
theorem Opcode.ofByte_eq_none_iff (b : Byte) : Opcode.ofByte b = none ↔ b ∉ Opcode.all.map Opcode.byte := by
  rw [Opcode.ofByte, List.find?_eq_none, List.mem_map]
  simp only [beq_iff_eq, not_exists, not_and]

theorem operandsOf_byte (o : Opcode) : operandsOf o.byte = o.operands := by
  rw [operandsOf, Opcode.ofByte_byte]

theorem operandsOf_of_unassigned {op : Byte} (h : Opcode.ofByte op = none) : operandsOf op = [] := by
  rw [operandsOf, h]

/-- The lengths that R90 writes out are those of the table's operands. -/
theorem lengthOf_eq (op : Byte) : lengthOf op =
    if op = 0x18 ∨ op = 0x1A ∨ op = 0x5B then 2
    else if op = 0x11 ∨ op = 0x14 ∨ op = 0x17 ∨ op = 0x5A then 3
    else if op = 0x10 ∨ op = 0x12 ∨ op = 0x13 ∨ op = 0x15 then 4
    else 1 := by
  cases ho : Opcode.ofByte op with
  | some o =>
    obtain rfl := (Opcode.ofByte_eq_some_iff op o).mp ho
    cases o <;> rfl
  | none =>
    have hnot := (Opcode.ofByte_eq_none_iff op).mp ho
    simp only [Opcode.all, Opcode.byte, List.map_cons, List.map_nil, List.mem_cons, List.not_mem_nil, or_false,
      not_or] at hnot
    simp only [lengthOf, operandsOf_of_unassigned ho, hnot, or_self, if_false, List.map_nil, List.sum_nil, Nat.add_zero]

/-- No instruction is longer than four bytes (R82). -/
theorem lengthOf_le_four (op : Byte) : lengthOf op ≤ 4 := by
  rw [lengthOf_eq]
  split_ifs <;> omega

/-! ## Decoding what was encoded -/

theorem decode_of_unassigned {op : Byte} (h : Opcode.ofByte op = none) (bytes : List Byte) :
    decode (op :: bytes) = .ok (.unassigned op, bytes) := by
  rw [decode, h]

/-- The encoding of an assigned opcode's instruction begins with that opcode's byte (R82, R88). -/
theorem encode_of_opcode {i : Instr} {o : Opcode} (h : i.opcode = some o) : encode i = o.byte :: (encode i).tail := by
  cases i <;> cases h <;> rfl

/-- The operands of an encoding decode to the instruction: a word is put together from its two bytes again, and a
register's canonical byte selects that register (R58, R93). -/
theorem decodeOperands_encode {i : Instr} {o : Opcode} (h : i.opcode = some o) (rest : List Byte) :
    decodeOperands o ((encode i).tail ++ rest) = .ok (i, rest) := by
  cases i <;> cases h <;>
    simp only [encode, List.tail_cons, List.cons_append, List.nil_append, decodeOperands, joinBytes_hi_lo,
      resolveReg_byte]

theorem decode_encode_of_opcode {i : Instr} {o : Opcode} (h : i.opcode = some o) (rest : List Byte) :
    decode (encode i ++ rest) = .ok (i, rest) := by
  rw [encode_of_opcode h, List.cons_append, decode_byte_cons, decodeOperands_encode h]

/-- Settles O1: the opcode byte selects the operands' format, and their bytes decode to the operands; a well-formed
`unassigned` is one of the 244 bytes, which has no operands. -/
theorem decodeEncodeAgree : Obligations.DecodeEncodeAgree := by
  intro i rest hwf
  cases i with
  | unassigned op => exact decode_of_unassigned (Option.isNone_iff_eq_none.mp hwf) rest
  | _ => exact decode_encode_of_opcode rfl rest

/-! ## What the decoder answers -/

/-- `i` is an instruction of the opcode byte `op`: the byte names its opcode, and heads its encoding. -/
structure Instr.HasByte (op : Byte) (i : Instr) : Prop where
  opcode : i.opcode = Opcode.ofByte op
  head : (encode i).head? = some op

theorem Instr.HasByte.of_opcode {i : Instr} {o : Opcode} (h : i.opcode = some o) : i.HasByte o.byte :=
  ⟨by rw [h, Opcode.ofByte_byte], by rw [encode_of_opcode h, List.head?_cons]⟩

theorem Instr.HasByte.of_unassigned {op : Byte} (h : Opcode.ofByte op = none) : (Instr.unassigned op).HasByte op :=
  ⟨h.symm, rfl⟩

theorem Instr.HasByte.length_eq {op : Byte} {i : Instr} (h : i.HasByte op) : i.length = lengthOf op := by
  rw [Instr.length, h.opcode, lengthOf, operandsOf]
  cases Opcode.ofByte op <;> rfl

theorem Instr.HasByte.wellFormed {op : Byte} {i : Instr} (h : i.HasByte op) : i.wellFormed = true := by
  cases i with
  | unassigned op' =>
    obtain rfl : op' = op := Option.some.inj h.head
    exact Option.isNone_iff_eq_none.mpr h.opcode.symm
  | _ => rfl

/-- Decoded operands make an instruction of their opcode, and as many bytes as its format says are taken (R81, R88). -/
theorem decodeOperands_eq_ok {o : Opcode} {bytes rest : List Byte} {i : Instr}
    (h : decodeOperands o bytes = .ok (i, rest)) :
    i.opcode = some o ∧ bytes.drop (o.operands.map OperandKind.size).sum = rest ∧
      bytes.length = rest.length + (o.operands.map OperandKind.size).sum := by
  unfold decodeOperands at h
  split at h <;> cases h
  all_goals exact ⟨rfl, rfl, rfl⟩

/-- A decoded instruction is one of the opcode byte, whatever follows it (R91). -/
theorem decode_hasByte {op : Byte} {bytes rest : List Byte} {i : Instr} (h : decode (op :: bytes) = .ok (i, rest)) :
    i.HasByte op := by
  cases ho : Opcode.ofByte op with
  | none =>
    rw [decode_of_unassigned ho] at h
    cases h
    exact .of_unassigned ho
  | some o =>
    obtain rfl := (Opcode.ofByte_eq_some_iff op o).mp ho
    rw [decode_byte_cons] at h
    exact .of_opcode (decodeOperands_eq_ok h).1

/-- The bytes that decode after an opcode byte are its operands' bytes and the rest (R90). -/
theorem decode_operands_taken {op : Byte} {bytes rest : List Byte} {i : Instr}
    (h : decode (op :: bytes) = .ok (i, rest)) :
    bytes.drop ((operandsOf op).map OperandKind.size).sum = rest ∧
      bytes.length = rest.length + ((operandsOf op).map OperandKind.size).sum := by
  cases ho : Opcode.ofByte op with
  | none =>
    rw [decode_of_unassigned ho] at h
    cases h
    rw [operandsOf_of_unassigned ho]
    exact ⟨rfl, rfl⟩
  | some o =>
    obtain rfl := (Opcode.ofByte_eq_some_iff op o).mp ho
    rw [decode_byte_cons] at h
    rw [operandsOf_byte]
    exact (decodeOperands_eq_ok h).2

/-- Settles O3: a decoded instruction has its opcode byte, which fixes the length taken, and a well-formed instruction's
encoding decodes to it (O1). -/
theorem decodedIsWellFormed : Obligations.DecodedIsWellFormed := by
  intro bytes i rest h
  cases bytes with
  | nil => cases h
  | cons op bytes =>
    have hbyte := decode_hasByte h
    obtain ⟨hdrop, hlength⟩ := decode_operands_taken h
    refine ⟨hbyte.wellFormed, ?_, ?_, ?_⟩
    · rw [hbyte.length_eq, List.length_cons, hlength, lengthOf]
      omega
    · rw [hbyte.length_eq, lengthOf, Nat.add_comm, List.drop_succ_cons, hdrop]
    · simpa only [List.append_nil] using decodeEncodeAgree i [] hbyte.wellFormed

/-- Settles O51: both instructions have the one opcode byte. -/
theorem oneOpcodeOneInstruction : Obligations.OneOpcodeOneInstruction := by
  intro op b b' rest rest' i i' h h'
  have hbyte := decode_hasByte h
  have hbyte' := decode_hasByte h'
  exact ⟨hbyte.opcode.trans hbyte'.opcode.symm, hbyte.head, hbyte'.head⟩

/-! ## Every operand byte is legal -/

/-- Operand bytes of the number an opcode's format gives always decode, whatever their values (R92). -/
theorem decodeOperands_append (o : Opcode) {operands : List Byte}
    (h : operands.length = (o.operands.map OperandKind.size).sum) (rest : List Byte) :
    ∃ i, decodeOperands o (operands ++ rest) = .ok (i, rest) := by
  cases o with
  | ret =>
    obtain rfl := List.length_eq_zero_iff.mp h
    exact ⟨_, rfl⟩
  | pshReg | popReg | calReg =>
    obtain ⟨a, rfl⟩ := List.length_eq_one_iff.mp h
    exact ⟨_, rfl⟩
  | movRegReg | addRegReg | pshLit | calLit =>
    obtain ⟨a, b, rfl⟩ := List.length_eq_two.mp h
    exact ⟨_, rfl⟩
  | movLitReg | movRegMem | movMemReg | jmpNotEq =>
    obtain ⟨a, b, c, rfl⟩ := List.length_eq_three.mp h
    exact ⟨_, rfl⟩

/-- Operand bytes of the number the opcode byte fixes always decode, and what follows them is left over (R90). -/
theorem decode_append {op : Byte} {operands : List Byte} (h : operands.length + 1 = lengthOf op) (rest : List Byte) :
    ∃ i, decode (op :: operands ++ rest) = .ok (i, rest) := by
  have hlength : operands.length = ((operandsOf op).map OperandKind.size).sum := by
    rw [lengthOf] at h
    omega
  rw [List.cons_append]
  cases ho : Opcode.ofByte op with
  | none =>
    rw [operandsOf_of_unassigned ho] at hlength
    obtain rfl := List.length_eq_zero_iff.mp hlength
    exact ⟨_, decode_of_unassigned ho rest⟩
  | some o =>
    obtain rfl := (Opcode.ofByte_eq_some_iff op o).mp ho
    rw [operandsOf_byte] at hlength
    rw [decode_byte_cons]
    exact decodeOperands_append o hlength rest

/-- Settles O2: R90's numbers are the table's, that many operand bytes decode, and the instruction has the opcode byte. -/
theorem lengthFixedByOpcodeByte : Obligations.LengthFixedByOpcodeByte := by
  intro op operands rest h
  rw [← lengthOf_eq] at h
  obtain ⟨i, hdecode⟩ := decode_append h rest
  have hbyte := decode_hasByte hdecode
  exact ⟨i, hdecode, hbyte.length_eq.trans h.symm, hbyte.wellFormed, hbyte.head⟩

/-! ## The unassigned bytes -/

theorem decode_singleton_unassigned_iff (op : Byte) :
    decode [op] = .ok (.unassigned op, []) ↔ Opcode.ofByte op = none :=
  ⟨fun h => (Machine.decode_eq_unassigned h).2, fun h => decode_of_unassigned h []⟩

theorem Opcode.mem_all (o : Opcode) : o ∈ Opcode.all := by cases o <;> decide

/-- The numbers of the assigned bytes are the table's, each once (R88). -/
theorem filter_assigned_perm : List.Perm ((List.range 256).filter fun n => (Opcode.ofByte (BitVec.ofNat 8 n)).isSome)
    (Opcode.all.map fun o => o.byte.toNat) := by
  rw [List.perm_ext_iff_of_nodup (List.nodup_range.filter _) (by decide)]
  intro n
  rw [List.mem_filter, List.mem_range, List.mem_map]
  constructor
  · rintro ⟨hn, hsome⟩
    obtain ⟨o, ho⟩ := Option.isSome_iff_exists.mp hsome
    refine ⟨o, o.mem_all, ?_⟩
    rw [← (Opcode.ofByte_eq_some_iff _ o).mp ho, BitVec.toNat_ofNat, Nat.mod_eq_of_lt hn]
  · rintro ⟨o, -, rfl⟩
    rw [BitVec.ofNat_toNat, BitVec.setWidth_eq, Opcode.ofByte_byte]
    exact ⟨o.byte.isLt, rfl⟩

/-- The bytes that are not assigned are 256 less the table's 12 (R89). -/
theorem length_unassigned :
    ((List.range 256).filter fun n => (Opcode.ofByte (BitVec.ofNat 8 n)).isNone).length = 244 := by
  have hassigned := filter_assigned_perm.length_eq
  have hsplit := (List.range 256).length_eq_length_filter_add fun n => (Opcode.ofByte (BitVec.ofNat 8 n)).isSome
  simp only [Option.not_isSome] at hsplit
  rw [hassigned, List.length_range, List.length_map] at hsplit
  have hrows : Opcode.all.length = 12 := rfl
  omega

/-- Settles O4: a byte alone decodes to `unassigned` exactly where the table has no row for it, and the 12 rows have 12
different bytes. -/
theorem unassignedBytesAreTheOther244 : Obligations.UnassignedBytesAreTheOther244 :=
  ⟨fun op => (decode_singleton_unassigned_iff op).trans (Opcode.ofByte_eq_none_iff op),
    length_unassigned⟩

/-- Settles O6: each word is evaluated. -/
theorem writtenOutWordsDecode : Obligations.WrittenOutWordsDecode :=
  ⟨rfl, rfl, rfl, rfl, rfl, rfl, rfl, rfl⟩

end Sys2Proof

namespace Sys2Proof.Machine

variable {s : State}

/-! ## A step runs the instruction at ip -/

/-- A RUNNING engine whose fetched bytes decode runs the instruction (R87). -/
theorem step_of_fetchInstr {p : List Byte × State} {i : Instr} (hrunning : s.status = .running)
    (hfetch : fetchInstr s = .ok p) (hdecode : decode p.1 = .ok (i, [])) : step s = exec i s := by
  simp only [step, cycle, hrunning, hfetch, hdecode]

/-- A RUNNING engine whose fetch faults stops with that fault (R86). -/
theorem step_of_fetchInstr_error {f : Fault} (hrunning : s.status = .running) (hfetch : fetchInstr s = .error f) :
    step s = .fault f := by
  simp only [step, cycle, hrunning, hfetch]

/-- Bytes that stand at one address are determined by their number. -/
theorem BytesAt.eq_of_length_eq {a : Word} {bs cs : List Byte} (hbs : BytesAt a bs s) (hcs : BytesAt a cs s)
    (hlength : bs.length = cs.length) : bs = cs :=
  List.ext_getElem hlength fun k hk hk' => (hbs k hk).2.symm.trans (hcs k hk').2

/-- A byte list that stands at an address begins with the byte there. -/
theorem BytesAt.head {a : Word} {b : Byte} {bs : List Byte} (h : BytesAt a (b :: bs) s) :
    a.toNat < s.mem.size ∧ s.byteAt a.toNat = b := by
  have h0 := h 0 (Nat.succ_pos _)
  rwa [BitVec.add_zero] at h0

/-- Settles O8: the fetch answers bytes that stand at ip (R80), as many as the opcode byte's operands take, and so the bytes
that were given. -/
theorem stepRunsWrappedInstruction : Obligations.StepRunsWrappedInstruction := by
  intro s bytes i hrunning hsize hdecode hbytes hfit
  cases bytes with
  | nil => cases hdecode
  | cons op operands =>
    obtain ⟨hop, rfl⟩ := hbytes.head
    have hfetch := fetchInstr_of_fit s hop hfit
    have hlength := (decode_operands_taken hdecode).2
    have heq := (fetchInstr_answers hsize hfetch).1.eq_of_length_eq hbytes (by
      rw [List.length_cons, List.length_cons, operandBytes_length, hlength, List.length_nil, Nat.zero_add])
    exact step_of_fetchInstr hrunning hfetch (heq ▸ hdecode)

/-- Operands that lie inside the capacity without a wrap fit; `n` is their address as a number. -/
theorem operandsFit_of_le {size : Nat} (n : Nat) (ks : List OperandKind)
    (h : n + (ks.map OperandKind.size).sum ≤ size) : OperandsFit size (BitVec.ofNat 16 n) ks := by
  induction ks generalizing n with
  | nil => trivial
  | cons k ks ih =>
    rw [List.map_cons, List.sum_cons] at h
    have haddr : (BitVec.ofNat 16 n).toNat ≤ n := by
      rw [BitVec.toNat_ofNat]
      exact Nat.mod_le _ _
    refine ⟨by omega, ?_⟩
    rw [← BitVec.ofNat_add]
    exact ih (n + k.size) (by omega)

/-- Settles O7: operands that do not wrap fit, so this is O8. -/
theorem stepRunsDecodedInstruction : Obligations.StepRunsDecodedInstruction := by
  intro s bytes i hrunning hsize hdecode hbytes hend
  refine stepRunsWrappedInstruction s bytes i hrunning hsize hdecode hbytes ?_
  cases bytes with
  | nil => cases hdecode
  | cons op operands =>
    have hlength := (decode_operands_taken hdecode).2
    rw [List.length_nil] at hlength
    rw [List.length_cons] at hend
    have hfit := operandsFit_of_le ((s.get .ip).toNat + 1) (operandsOf op) (size := s.mem.size) (by omega)
    rwa [BitVec.ofNat_add, BitVec.ofNat_toNat, BitVec.setWidth_eq] at hfit

/-- Settles O13: a fetch faults or its bytes decode, and every instruction completes or faults. -/
theorem everyStepCompletesOrFaults : Obligations.EveryStepCompletesOrFaults := by
  intro s
  cases hstatus : s.status with
  | faulted rec => exact .inr ⟨_, step_of_faulted s hstatus⟩
  | running =>
    rcases step_of_running s hstatus with ⟨f, -, hstep⟩ | ⟨p, i, -, -, hstep⟩
    · exact .inr ⟨f, hstep⟩
    · rw [hstep]
      exact (exec_cases s i).imp_left fun h => ⟨_, h⟩

/-- Settles O12: a FAULTED engine's step is the recorded fault, raised anew over the state as it is. -/
theorem faultedEngineTakesNoStep : Obligations.FaultedEngineTakesNoStep := fun s r hfaulted =>
  ⟨_, step_of_faulted s hfaulted, Fault.ofRecord_record s r, Fault.ofRecord_after s r⟩

/-! ## Unassigned bytes -/

/-- A RUNNING engine with an unassigned byte at ip runs `unassigned` (R89). -/
theorem step_of_unassigned {op : Byte} (hrunning : s.status = .running) (hip : (s.get .ip).toNat < s.mem.size)
    (hop : s.byteAt (s.get .ip).toNat = op) (hunassigned : Opcode.ofByte op = none) :
    step s = exec (.unassigned op) s := by
  subst hop
  have hnone := operandsOf_of_unassigned hunassigned
  have hfetch := fetchInstr_of_fit s hip (by rw [hnone]; trivial)
  rw [hnone] at hfetch
  exact step_of_fetchInstr hrunning hfetch (decode_of_unassigned hunassigned [])

/-- Settles O15: the byte is outside the table, so the step runs `unassigned`, whose meaning is the policy's. -/
theorem unassignedOpcodeStep : Obligations.UnassignedOpcodeStep := by
  intro s op hrunning hip hop hnot
  rw [step_of_unassigned hrunning hip hop ((Opcode.ofByte_eq_none_iff op).mpr hnot)]
  exact ⟨exec_unassigned_nop s op, fun hpolicy =>
    ⟨_, exec_unassigned_fault s op hpolicy, State.raise_record _ _, State.raise_after _ _⟩⟩

theorem State.advance_regsKept (s : State) (n : Nat) : RegsKept [.ip] s (s.advance n) := s.set_regsKept .ip _

/-- Settles O47: what is left is the state one byte further. -/
theorem unassignedIsOneByteNop : Obligations.UnassignedIsOneByteNop := fun op s hpolicy =>
  ⟨_, exec_unassigned_nop s op hpolicy, State.advance_get s .ip 1, s.advance_regsKept 1, rfl, ⟨rfl, rfl⟩, rfl,
    fun _ => rfl⟩

/-! ## How a fetch faults -/

/-- The fault of a fetch of `n` made in the state `t`: a read at its ip (R83, R84, R211). -/
def fetchFault (ip0 : Word) (n : AccessSize) (t : State) : Fault :=
  t.raise (.outOfBounds (t.get .ip) n .read true ip0)

/-- Settles O9: the opcode fetch is the first, so its fault is raised in the state the step started from. -/
theorem opcodeFetchBeyondMemoryFaults : Obligations.OpcodeFetchBeyondMemoryFaults := by
  intro s hrunning hbeyond
  refine ⟨fetchFault (s.get .ip) .byte s, step_of_fetchInstr_error hrunning ?_, State.raise_record _ _,
    State.raise_after _ _⟩
  rw [fetchInstr, fetchByte_of_outOfBounds _ s hbeyond, error_bind]
  rfl

/-- Settles O28: inside the capacity the word at ip is answered and ip moves; outside it the access faults, as no address is
reduced in the check. -/
theorem fetchWordIsOneAccess : Obligations.FetchWordIsOneAccess := by
  refine fun s ip0 => ⟨fun hin => ?_, fun hout => ⟨_, fetchWord_of_outOfBounds ip0 s hout, State.raise_record _ _⟩⟩
  refine ⟨_, _, fetchWord_of_inBounds ip0 s hin, joinBytes_toNat _ _, ?_, s.advance_regsKept 2, rfl, ⟨rfl, rfl⟩, rfl,
    fun _ => rfl⟩
  rw [State.advance_get, if_pos rfl, BitVec.toNat_add]
  rfl

/-- A byte is fetched and ip is past it, or its fetch faults where ip stands (R83). -/
theorem fetchByte_cases (ip0 : Word) (s : State) :
    (∃ b, fetchByte ip0 s = .ok (b, s.advance 1)) ∨ fetchByte ip0 s = .error (fetchFault ip0 .byte s) := by
  by_cases h : (s.get .ip).toNat < s.mem.size
  · exact .inl ⟨_, fetchByte_of_inBounds ip0 s h⟩
  · exact .inr (fetchByte_of_outOfBounds ip0 s (by omega))

/-- A word is fetched and ip is past it, or its fetch faults where ip stands (R84). -/
theorem fetchWord_cases (ip0 : Word) (s : State) :
    (∃ w, fetchWord ip0 s = .ok (w, s.advance 2)) ∨ fetchWord ip0 s = .error (fetchFault ip0 .word s) := by
  by_cases h : (s.get .ip).toNat + 2 ≤ s.mem.size
  · exact .inl ⟨_, fetchWord_of_inBounds ip0 s h⟩
  · exact .inr (fetchWord_of_outOfBounds ip0 s (by omega))

/-- An operand is one access: it is fetched and ip is past it, or it faults where it stands (R83, R84). -/
theorem fetchOperand_cases (ip0 : Word) (k : OperandKind) (s : State) :
    (∃ bs, fetchOperand ip0 k s = .ok (bs, s.advance k.size)) ∨
      ∃ n, fetchOperand ip0 k s = .error (fetchFault ip0 n s) := by
  cases k with
  | register | address8 =>
    rw [fetchOperand]
    rcases fetchByte_cases ip0 s with ⟨b, h⟩ | h <;> rw [h]
    · exact .inl ⟨[b], rfl⟩
    · exact .inr ⟨_, rfl⟩
  | literal16 | address16 =>
    rw [fetchOperand]
    rcases fetchWord_cases ip0 s with ⟨w, h⟩ | h <;> rw [h]
    · exact .inl ⟨[hiByte w, loByte w], rfl⟩
    · exact .inr ⟨_, rfl⟩

theorem State.advance_zero (s : State) : s.advance 0 = s := by
  refine State.eq_of_get_eq (fun r => ?_) rfl rfl rfl rfl
  by_cases hr : r = .ip <;> simp [hr]

theorem OperandKind.size_pos (k : OperandKind) : 0 < k.size := by cases k <;> decide

/-- Operands fault at the first that does not fit, which begins `k` bytes further, inside the operands (R86). -/
theorem fetchOperands_eq_error {ip0 : Word} {ks : List OperandKind} {f : Fault} (h : fetchOperands ip0 ks s = .error f) :
    ∃ k < (ks.map OperandKind.size).sum, ∃ n, f = fetchFault ip0 n (s.advance k) := by
  induction ks generalizing s with
  | nil => cases h
  | cons kind ks ih =>
    rw [fetchOperands] at h
    rw [List.map_cons, List.sum_cons]
    rcases fetchOperand_cases ip0 kind s with ⟨bs, hfirst⟩ | ⟨n, hfirst⟩ <;> rw [hfirst] at h
    · cases hlater : fetchOperands ip0 ks (s.advance kind.size) with
      | ok q => simp only [ok_bind, hlater] at h; cases h
      | error g =>
        simp only [ok_bind, hlater, error_bind] at h
        cases h
        obtain ⟨k, hk, n, rfl⟩ := ih hlater
        exact ⟨kind.size + k, by omega, n, by rw [State.advance_advance]⟩
    · cases h
      exact ⟨0, by have := OperandKind.size_pos kind; omega, n, by rw [State.advance_zero]⟩

/-- A fetch faults at most three bytes into the instruction, in the state its earlier fetches left (R82, R86). -/
theorem fetchInstr_eq_error {f : Fault} (h : fetchInstr s = .error f) :
    ∃ k ≤ 3, ∃ n, f = fetchFault (s.get .ip) n (s.advance k) := by
  rw [fetchInstr] at h
  rcases fetchByte_cases (s.get .ip) s with ⟨op, hop⟩ | hop <;> rw [hop] at h
  · cases hoperands : fetchOperands (s.get .ip) (operandsOf op) (s.advance 1) with
    | ok q => simp only [ok_bind, hoperands] at h; cases h
    | error g =>
      simp only [ok_bind, hoperands, error_bind] at h
      cases h
      obtain ⟨k, hk, n, rfl⟩ := fetchOperands_eq_error hoperands
      have hlength := lengthOf_le_four op
      rw [lengthOf] at hlength
      exact ⟨1 + k, by omega, n, by rw [State.advance_advance]⟩
  · cases h
    exact ⟨0, by omega, .byte, by rw [State.advance_zero]⟩

/-! ## No instruction faults in a fetch -/

/-- The fault of an instruction fetch, by its record's flag (R211). -/
def Fault.IsFetch (f : Fault) : Prop := ∃ addr n kind ip0, f.record = .outOfBounds addr n kind true ip0

/-- An operation that raises no fault of a fetch. -/
def NoFetch {α : Type} (x : Except Fault α) : Prop := ∀ f, x = .error f → ¬ f.IsFetch

theorem NoFetch.ok {α : Type} (a : α) : NoFetch (.ok a) := fun _ h => nomatch h

/-- Two operations in turn raise no fault of a fetch where neither does. -/
theorem NoFetch.bind {α β : Type} {x : Except Fault α} {g : α → Except Fault β} (hx : NoFetch x)
    (hg : ∀ a, NoFetch (g a)) : NoFetch (x >>= g) := by
  cases x with
  | error f =>
    rintro _ ⟨⟩
    exact hx f rfl
  | ok a => exact hg a

theorem not_isFetch_raise_data (addr ip0 : Word) (n : AccessSize) (kind : AccessKind) (s : State) :
    ¬ (s.raise (.outOfBounds addr n kind false ip0)).IsFetch := by
  rintro ⟨_, _, _, _, h⟩
  cases h

theorem not_isFetch_raise_unknownOpcode (op : Byte) (ip0 : Word) (s : State) :
    ¬ (s.raise (.unknownOpcode op ip0)).IsFetch := by
  rintro ⟨_, _, _, _, h⟩
  cases h

theorem readWord_noFetch (ip0 addr : Word) (s : State) : NoFetch (readWord false ip0 addr s) := by
  rw [readWord]
  split
  · exact .ok _
  · rintro _ ⟨⟩
    exact not_isFetch_raise_data _ _ _ _ _

theorem writeWord_noFetch (ip0 addr v : Word) (s : State) : NoFetch (writeWord ip0 addr v s) := by
  rw [writeWord]
  split
  · exact .ok _
  · rintro _ ⟨⟩
    exact not_isFetch_raise_data _ _ _ _ _

theorem push_noFetch (ip0 v : Word) (s : State) : NoFetch (push ip0 v s) :=
  (writeWord_noFetch _ _ _ _).bind fun _ => .ok _

theorem pop_noFetch (ip0 : Word) (s : State) : NoFetch (pop ip0 s) :=
  (readWord_noFetch _ _ _).bind fun _ => .ok _

theorem pushRegs_noFetch (ip0 : Word) (rs : List Reg) (s : State) : NoFetch (pushRegs ip0 rs s) := by
  induction rs generalizing s with
  | nil => exact .ok _
  | cons r rs ih => exact (push_noFetch _ _ _).bind fun _ => ih _

theorem popRegs_noFetch (ip0 : Word) (rs : List Reg) (s : State) : NoFetch (popRegs ip0 rs s) := by
  induction rs generalizing s with
  | nil => exact .ok _
  | cons r rs ih => exact (pop_noFetch _ _).bind fun _ => ih _

theorem discard_noFetch (ip0 : Word) (n : Nat) (s : State) : NoFetch (discard ip0 n s) := by
  induction n generalizing s with
  | zero => exact .ok _
  | succ n ih => exact (pop_noFetch _ _).bind fun _ => ih _

theorem pushState_noFetch (ip0 : Word) (s : State) : NoFetch (pushState ip0 s) :=
  (pushRegs_noFetch _ _ _).bind fun _ => (push_noFetch _ _ _).bind fun _ => (push_noFetch _ _ _).bind fun _ => .ok _

theorem popState_noFetch (ip0 : Word) (s : State) : NoFetch (popState ip0 s) :=
  (pop_noFetch _ _).bind fun _ => (pop_noFetch _ _).bind fun _ => (popRegs_noFetch _ _ _).bind fun _ =>
    (pop_noFetch _ _).bind fun _ => (discard_noFetch _ _ _).bind fun _ => .ok _

theorem not_isFetch_of_settle {x : Except Fault State} {f : Fault} (hx : NoFetch x) (h : settle x = .fault f) :
    ¬ f.IsFetch := by
  cases x with
  | ok t => cases h
  | error g =>
    cases h
    exact hx f rfl

/-- The accesses of an instruction's meaning are no fetches: those came before it (R86). -/
theorem not_isFetch_of_exec {i : Instr} {f : Fault} (h : exec i s = .fault f) : ¬ f.IsFetch := by
  cases i with
  | movLitReg | movRegReg | addRegReg | jmpNotEq => cases h
  | movRegMem => exact not_isFetch_of_settle (writeWord_noFetch _ _ _ _) h
  | movMemReg => exact not_isFetch_of_settle ((readWord_noFetch _ _ _).bind fun _ => .ok _) h
  | pshLit | pshReg => exact not_isFetch_of_settle (push_noFetch _ _ _) h
  | popReg => exact not_isFetch_of_settle ((pop_noFetch _ _).bind fun _ => .ok _) h
  | calLit | calReg => exact not_isFetch_of_settle ((pushState_noFetch _ _).bind fun _ => .ok _) h
  | ret => exact not_isFetch_of_settle (popState_noFetch _ _) h
  | unassigned op =>
    cases hpolicy : s.config.policy with
    | nop =>
      rw [exec_unassigned_nop s op hpolicy] at h
      cases h
    | fault =>
      rw [exec_unassigned_fault s op hpolicy] at h
      cases h
      exact not_isFetch_raise_unknownOpcode _ _ _

/-- Settles O11: a fault whose record has the fetch flag is the fetch's, raised in the state its earlier fetches left. -/
theorem fetchFaultOnlyAdvancesIp : Obligations.FetchFaultOnlyAdvancesIp := by
  intro s f addr ip0 n kind hrunning hstep hrecord
  rcases step_of_running s hrunning with ⟨g, hfetch, hstep'⟩ | ⟨p, i, -, -, hstep'⟩
  · cases hstep'.symm.trans hstep
    obtain ⟨k, hk, size, rfl⟩ := fetchInstr_eq_error hfetch
    cases hrecord
    exact ⟨rfl, rfl, k, hk, rfl, rfl⟩
  · exact absurd ⟨addr, n, kind, ip0, hrecord⟩ (not_isFetch_of_exec (hstep'.symm.trans hstep))

end Sys2Proof.Machine

/-! # Proofs: move. What the four moves load, store and leave unchanged, and where they fault (R120 to R124, R211, R214). -/

namespace Sys2Proof.Machine

variable (s : State)

/-! ## A destination written after ip's advance (R86, R124) -/

/-- Only the destination being ip keeps ip from standing at the next instruction. -/
theorem advance_set_get_ip (n : Nat) {d : Reg} (v : Word) (h : d ≠ .ip) :
    ((s.advance n).set d v).get .ip = s.get .ip + BitVec.ofNat 16 n := by
  rw [State.set_get, if_neg h.symm, State.advance_get, if_pos rfl]

theorem advance_set_regsKept (n : Nat) (d : Reg) (v : Word) : RegsKept [.ip, d] s ((s.advance n).set d v) := by
  intro r hr
  obtain ⟨hip, hd⟩ : r ≠ .ip ∧ r ≠ d := by simpa using hr
  rw [State.set_get, if_neg hd, State.advance_get, if_neg hip]

/-- The counter, the parameters, the status and the Memory are no part of what a register write changes. -/
theorem advance_set_restKept (n : Nat) (d : Reg) (v : Word) :
    ((s.advance n).set d v).sfc = s.sfc ∧ ControlKept s ((s.advance n).set d v) ∧
      MemoryKept s ((s.advance n).set d v) :=
  ⟨rfl, ⟨rfl, rfl⟩, rfl, fun _ => rfl⟩

/-! ## Moves between registers and literals -/

theorem exec_movLitReg (lit : Word) (d : Reg) : exec (.movLitReg lit d) s = .next ((s.advance 4).set d lit) := rfl

theorem exec_movRegReg (src d : Reg) :
    exec (.movRegReg src d) s = .next ((s.advance 3).set d (sourceValue s 3 src)) := by
  simp only [exec, execMovRegReg, State.dest, source_advance]

/-- Settles O29: the literal is written after ip's advance, so a write to ip replaces it. -/
theorem movLitRegLoadsLiteral : Obligations.MovLitRegLoadsLiteral := fun lit d s =>
  ⟨_, exec_movLitReg s lit d, by rw [State.set_get, if_pos rfl], advance_set_get_ip s 4 lit,
    advance_set_regsKept s 4 d lit, advance_set_restKept s 4 d lit⟩

/-- Settles O30: the source is read after ip's advance and before the destination is written. -/
theorem movRegRegCopiesSource : Obligations.MovRegRegCopiesSource := fun src d s =>
  ⟨_, exec_movRegReg s src d, by rw [State.set_get, if_pos rfl], advance_set_get_ip s 3 _,
    advance_set_regsKept s 3 d _, advance_set_restKept s 3 d _⟩

/-! ## Moves to and from the Memory -/

/-- Settles O31: inside the capacity the store is `setWord`, in the state ip's advance left. -/
theorem movRegMemStoresWord : Obligations.MovRegMemStoresWord := fun src addr s hwf hin =>
  ⟨_, exec_movRegMem_of_inBounds s addr src hin, Memory.setWord_byteAt_hi _ _ _ hwf,
    Memory.setWord_byteAt_lo _ _ _ hwf hin, setMem_setWord_memoryKeptOutside (s.advance 4) addr _,
    State.advance_get s .ip 4, s.advance_regsKept 4, rfl, rfl, rfl⟩

/-- Settles O32: inside the capacity the destination is written with the two bytes joined. -/
theorem movMemRegLoadsWord : Obligations.MovMemRegLoadsWord := by
  intro addr d s hin
  refine ⟨_, exec_movMemReg_of_inBounds s addr d hin, ?_, advance_set_get_ip s 4 _, advance_set_regsKept s 4 d _,
    advance_set_restKept s 4 d _⟩
  rw [State.set_get, if_pos rfl]
  exact joinBytes_toNat _ _

/-- Settles O33: either access raises its fault in the state ip's advance left. -/
theorem moveOutsideMemoryFaults : Obligations.MoveOutsideMemoryFaults := fun r addr s hout =>
  ⟨⟨_, exec_movRegMem_of_outOfBounds s addr r hout, State.raise_record _ _, State.raise_after _ _⟩,
    ⟨_, exec_movMemReg_of_outOfBounds s addr r hout, State.raise_record _ _, State.raise_after _ _⟩⟩

end Sys2Proof.Machine

/-! # Proofs: arithmetic. The one sum (R140, R141, R217). -/

namespace Sys2Proof.Machine

theorem sum16_toNat (v1 v2 : Word) : (sum16 v1 v2).toNat = (v1.toNat + v2.toNat) % 65536 := BitVec.toNat_add v1 v2

/-- Both sources are read after ip's advance and before acc is written, so acc may itself be a source (R140). -/
theorem exec_addRegReg (s : State) (src1 src2 : Reg) :
    exec (.addRegReg src1 src2) s =
      .next ((s.advance 3).set .acc (sum16 (sourceValue s 3 src1) (sourceValue s 3 src2))) := by
  simp only [exec, execAddRegReg, State.dest, source_advance]

/-- Settles O34: the destination is acc and never ip, so ip keeps its advance. -/
theorem addRegRegSumsModulo : Obligations.AddRegRegSumsModulo := by
  intro src1 src2 s
  refine ⟨_, exec_addRegReg s src1 src2, ?_, advance_set_get_ip s 3 _ (by decide), advance_set_regsKept s 3 .acc _,
    advance_set_restKept s 3 .acc _⟩
  rw [State.set_get, if_pos rfl]
  exact sum16_toNat _ _

end Sys2Proof.Machine

/-! # Proofs: branch. Where JMP_NOT_EQ leaves ip, and what it leaves unchanged (R150, R151). -/

namespace Sys2Proof.Machine

/-- An 8-bit target stands for itself, so a jump stays in the first 256 bytes (R151). -/
theorem zeroExtend16_toNat (b : Byte) : (zeroExtend16 b).toNat = b.toNat :=
  BitVec.toNat_setWidth_of_le (by decide)

theorem exec_jmpNotEq_of_eq (s : State) {lit : Word} (target : Byte) (h : lit = s.get .acc) :
    exec (.jmpNotEq lit target) s = .next (s.advance 4) := by
  rw [exec_jmpNotEq, if_pos h]

theorem exec_jmpNotEq_of_ne (s : State) {lit : Word} (target : Byte) (h : lit ≠ s.get .acc) :
    exec (.jmpNotEq lit target) s = .next ((s.advance 4).set .ip (zeroExtend16 target)) := by
  rw [exec_jmpNotEq, if_neg h]

/-- Settles O35: both branches write ip alone; the taken one replaces its advance by the target. -/
theorem jmpNotEqBranches : Obligations.JmpNotEqBranches := by
  intro lit target s
  by_cases h : lit = s.get .acc
  case pos =>
    exact ⟨_, exec_jmpNotEq_of_eq s target h, fun hne => absurd h hne, fun _ => State.advance_get s .ip 4,
      s.advance_regsKept 4, rfl, ⟨rfl, rfl⟩, rfl, fun _ => rfl⟩
  case neg =>
    refine ⟨_, exec_jmpNotEq_of_ne s target h, fun _ => ?_, fun heq => absurd heq h, ?_,
      advance_set_restKept s 4 .ip _⟩
    · rw [State.set_get, if_pos rfl, zeroExtend16_toNat]
    · simpa [RegsKept] using advance_set_regsKept s 4 .ip (zeroExtend16 target)

end Sys2Proof.Machine

/-! # Proofs: stack. What a push stores and a pop loads, the two in turn, and where they fault (R160 to R164, R166, R214). -/

namespace Sys2Proof.Machine

variable (s : State)

/-! ## One push -/

/-- The pushed word stands where sp was (R160). -/
theorem pushed_wordAt_sp (v : Word) (hwf : s.mem.wf) (hin : (s.get .sp).toNat + 2 ≤ s.mem.size) :
    (s.pushed v).wordAt (s.get .sp) = v :=
  Memory.setWord_wordAt _ _ _ hwf hin

/-- `t` is what a push instruction of `len` bytes leaves of `s` when it pushes `v` (R160, R162, R163). -/
def PushResult (s : State) (len : Nat) (v : Word) (t : State) : Prop :=
  t.wordAt (s.get .sp) = v ∧ t.get .sp = s.get .sp - 2 ∧ t.sfc = s.sfc + cntAmount s.config.cntStep ∧
  t.get .ip = s.get .ip + BitVec.ofNat 16 len ∧ MemoryKeptOutside (s.get .sp) s t ∧ RegsKept [.ip, .sp] s t ∧
  ControlKept s t

/-- The push comes after ip's advance, which leaves sp, the counter and the Memory alone (R86, R160). -/
theorem advance_pushed_pushResult (len : Nat) (v : Word) (hwf : s.mem.wf)
    (hin : (s.get .sp).toNat + 2 ≤ s.mem.size) : PushResult s len v ((s.advance len).pushed v) := by
  refine ⟨pushed_wordAt_sp (s.advance len) v hwf hin, ?_, rfl, ?_,
    setMem_setWord_memoryKeptOutside s (s.get .sp) v, fun r hr => ?_, rfl, rfl⟩
  · rw [State.pushed_get, if_pos rfl, State.advance_get, if_neg (by decide)]
  · rw [State.pushed_get, if_neg (by decide), State.advance_get, if_pos rfl]
  · obtain ⟨hip, hsp⟩ : r ≠ .ip ∧ r ≠ .sp := by simpa using hr
    rw [State.pushed_get, if_neg hsp, State.advance_get, if_neg hip]

/-- Settles O36: both are a push after ip's advance, of the literal or of the source register's value. -/
theorem pushInstructionsPush : Obligations.PushInstructionsPush := fun s hwf hin =>
  ⟨fun lit => ⟨_, exec_pshLit_of_inBounds s lit hin, advance_pushed_pushResult s 3 lit hwf hin⟩,
    fun src => ⟨_, exec_pshReg_of_inBounds s src hin, advance_pushed_pushResult s 2 _ hwf hin⟩⟩

/-- Settles O37: the push raises its fault in the state ip's advance left, before sp and the counter move. -/
theorem pushOutsideMemoryFaults : Obligations.PushOutsideMemoryFaults := fun s hout =>
  ⟨fun lit => ⟨_, exec_pshLit_of_outOfBounds s lit hout, State.raise_record _ _, State.raise_after _ _⟩,
    fun src => ⟨_, exec_pshReg_of_outOfBounds s src hout, State.raise_record _ _, State.raise_after _ _⟩⟩

/-! ## One pop -/

/-- Settles O38: the destination is written after ip's advance and sp's move, so it replaces either where it is that
register. -/
theorem popRegPops : Obligations.PopRegPops := by
  intro d s hin
  refine ⟨_, exec_popReg_of_inBounds s d hin, ?_, fun hsp => ?_, fun hip => ?_, rfl,
    completed_regsKept s (.popReg d), ⟨rfl, rfl⟩, rfl, fun _ => rfl⟩
  · rw [State.set_get, if_pos rfl]
  · rw [State.set_get, if_neg hsp.symm, State.popped_get, if_pos rfl, State.advance_get, if_neg (by decide)]
  · rw [State.set_get, if_neg hip.symm, State.popped_get, if_neg (by decide)]
    exact State.advance_get s .ip 2

/-- Settles O39: the read raises its fault in the state that ip's advance and sp's move left. -/
theorem popOutsideMemoryFaults : Obligations.PopOutsideMemoryFaults := fun d s hout =>
  ⟨_, exec_popReg_of_outOfBounds s d hout, State.raise_record _ _, State.raise_after _ _⟩

/-! ## A push and a pop in turn (R166) -/

/-- The next pop reads where the push stored, sp wrapping back if the push wrapped it. -/
theorem pushed_sp_add_two (v : Word) : (s.pushed v).get .sp + 2 = s.get .sp := by
  rw [State.pushed_get, if_pos rfl, BitVec.sub_add_cancel]

/-- A pop right after a push answers the pushed word. -/
theorem pop_pushed (v ip1 : Word) (hwf : s.mem.wf) (hin : (s.get .sp).toNat + 2 ≤ s.mem.size) :
    pop ip1 (s.pushed v) = .ok (v, (s.pushed v).popped) := by
  have hfit : ((s.pushed v).get .sp + 2).toNat + 2 ≤ (s.pushed v).mem.size := by
    rw [pushed_sp_add_two]
    exact hin
  rw [pop_of_inBounds ip1 _ hfit, pushed_sp_add_two, pushed_wordAt_sp s v hwf hin]

/-- Settles O40: the pop reads the pushed word back, and its moves of sp and the counter undo the push's. -/
theorem pushThenPopRoundTrip : Obligations.PushThenPopRoundTrip := by
  intro s v ip0 ip1 hwf hin
  refine ⟨s.pushed v, (s.pushed v).popped, push_of_inBounds ip0 v s hin, pop_pushed s v ip1 hwf hin, ?_, ?_⟩
  · rw [State.popped_get, if_pos rfl, pushed_sp_add_two]
  · rw [State.popped_sfc, State.pushed_config, State.pushed_sfc, BitVec.add_sub_cancel]

end Sys2Proof.Machine

/-! # Proofs: call and return. The frame a call builds and where it faults, what RET restores from a frame and where it faults,
and the two in turn (R181 to R189, R214). -/

namespace Sys2Proof.Machine

variable (s : State)

/-! ## The frame's words -/

@[simp] theorem callFrame_length (len : Nat) : (callFrame s len).length = 10 := rfl

/-- Each of at most ten pushed words is read back at its place: so few never meet again by wrapping (R160). -/
theorem pushedAll_wordAt (vs : List Word) (hinv : s.Inv) (hfit : PushesFit s.mem.size (s.get .sp) vs.length)
    (hlen : vs.length ≤ 10) {k : Nat} (hk : k < vs.length) :
    (s.pushedAll vs).wordAt (pushAddr (s.get .sp) k) = vs.getD k 0 := by
  obtain ⟨-, hmax, hwf⟩ := hinv
  rw [State.wordAt, State.pushedAll_mem, List.getD_eq_getElem _ _ hk]
  exact Memory.setWordsDown_wordAt vs s.mem _ hwf hfit hmax (by omega) k hk

/-- Pushing a list of words leaves every byte outside their places (R60). -/
theorem pushedAll_byteAt_of_outside (vs : List Word) {a : Nat}
    (h : ∀ k < vs.length, a ≠ (pushAddr (s.get .sp) k).toNat ∧ a ≠ (pushAddr (s.get .sp) k).toNat + 1) :
    (s.pushedAll vs).byteAt a = s.byteAt a := by
  rw [State.byteAt, State.pushedAll_mem]
  exact Memory.setWordsDown_byteAt_of_apart vs s.mem _ a h

/-- After ip's advance the prologue pushes the call's frame, then sets fp and the counter (R181). -/
theorem entered_advance (len : Nat) : (s.advance len).entered =
    (((s.advance len).pushedAll (callFrame s len)).set .fp (s.get .sp - 20)).setSfc 0 := by
  rw [State.entered, frameWords_advance, State.advance_get, if_neg (by decide)]

/-! ## A call whose frame fits -/

/-- The prologue after ip's advance, then the jump, is what a call leaves (R181, R183, R185, R186). -/
theorem entered_set_ip_callResult (len : Nat) (target : Word) (hinv : s.Inv)
    (hfit : PushesFit s.mem.size (s.get .sp) 10) : CallResult s len target ((s.advance len).entered.set .ip target) := by
  have hsp : (s.advance len).get .sp = s.get .sp := by simp
  refine ⟨by simp, by simp, by simp, by simp, fun k hk => ?_, fun r hr => ?_, by simp [ControlKept], ?_, fun a ha => ?_⟩
  · rw [State.set_wordAt, entered_advance, State.setSfc_wordAt, State.set_wordAt, ← hsp]
    exact pushedAll_wordAt (s.advance len) (callFrame s len) hinv (by rwa [hsp]) (by simp) hk
  · obtain ⟨hip, hsp, hfp⟩ : r ≠ .ip ∧ r ≠ .sp ∧ r ≠ .fp := by simpa using hr
    simp [hip, hsp, hfp]
  · rw [State.set_mem, State.entered_mem, Memory.setWordsDown_size, State.advance_mem]
  · rw [State.set_byteAt, entered_advance, State.setSfc_byteAt, State.set_byteAt]
    exact pushedAll_byteAt_of_outside (s.advance len) (callFrame s len) (by rwa [hsp])

/-- Settles O41: both calls are the prologue after ip's advance, then the jump; CAL_REG's target is read between the two. -/
theorem callsBuildTheFrame : Obligations.CallsBuildTheFrame := fun s hinv hfit =>
  ⟨fun target => ⟨_, exec_calLit_of_fit s target hfit, entered_set_ip_callResult s 3 target hinv hfit⟩,
    fun src => ⟨_, exec_calReg_of_fit s src hfit, entered_set_ip_callResult s 2 _ hinv hfit⟩⟩

/-! ## Either call instruction -/

/-- `i` is a call instruction of `len` bytes (R185, R186). -/
def IsCall (i : Instr) (len : Nat) : Prop := (∃ target, i = .calLit target ∧ len = 3) ∨ ∃ src, i = .calReg src ∧ len = 2

variable {s} {i : Instr} {len : Nat}

/-- A call is the prologue after ip's advance, then a jump to a target fixed before the frame (R185, R186). -/
theorem exec_of_isCall (s : State) (hcall : IsCall i len) : ∃ target, exec i s =
    settle (pushState (s.get .ip) (s.advance len) >>= fun t => .ok (t.set .ip target)) := by
  rcases hcall with ⟨target, rfl, rfl⟩ | ⟨src, rfl, rfl⟩
  · exact ⟨target, rfl⟩
  · refine ⟨sourceValue s 2 src, ?_⟩
    rw [← source_advance]
    rfl

theorem callResult_of_exec {t : State} (hcall : IsCall i len) (hinv : s.Inv)
    (hfit : PushesFit s.mem.size (s.get .sp) 10) (h : exec i s = .next t) : ∃ target, CallResult s len target t := by
  rcases hcall with ⟨target, rfl, rfl⟩ | ⟨src, rfl, rfl⟩
  · obtain rfl := eq_completed_of_exec h
    exact ⟨target, entered_set_ip_callResult s 3 target hinv hfit⟩
  · obtain rfl := eq_completed_of_exec h
    exact ⟨_, entered_set_ip_callResult s 2 _ hinv hfit⟩

/-! ## A call that faults -/

/-- Pushing words of which the first `k` fit and the next does not (R160, R214). -/
theorem pushWords_of_first_unfit (ip0 : Word) (s : State) (vs : List Word) {k : Nat} (hk : k < vs.length)
    (hfit : PushesFit s.mem.size (s.get .sp) k) (hbad : s.mem.size < (pushAddr (s.get .sp) k).toNat + 2) :
    pushWords ip0 vs s = .error ((s.pushedAll (vs.take k)).raise
      (.outOfBounds (pushAddr (s.get .sp) k) .word .write false ip0)) := by
  have hlen : (vs.take k).length = k := List.length_take_of_le (Nat.le_of_lt hk)
  have hsplit : vs.take k ++ vs[k] :: vs.drop (k + 1) = vs := by
    rw [← List.drop_eq_getElem_cons hk, List.take_append_drop]
  have hpush := pushWords_of_unfit ip0 vs[k] s (vs.take k) (vs.drop (k + 1)) (by rwa [hlen]) (by rwa [hlen])
  rwa [hsplit, hlen] at hpush

/-- A call whose first `k` pushes fit and whose next does not faults there, after the earlier ones (R185, R186, R214). -/
theorem exec_call_of_unfit (s : State) (hcall : IsCall i len) {k : Nat} (hk : k < 10)
    (hfit : PushesFit s.mem.size (s.get .sp) k) (hbad : s.mem.size < (pushAddr (s.get .sp) k).toNat + 2) :
    exec i s = .fault (((s.advance len).pushedAll ((callFrame s len).take k)).raise
      (.outOfBounds (pushAddr (s.get .sp) k) .word .write false (s.get .ip))) := by
  have hsp : (s.advance len).get .sp = s.get .sp := by simp
  obtain ⟨target, hexec⟩ := exec_of_isCall s hcall
  have hpush := pushWords_of_first_unfit (s.get .ip) (s.advance len) (callFrame s len) hk (by rwa [hsp]) (by rwa [hsp])
  rw [hexec, pushState_eq_pushWords, frameWords_advance, hpush, error_bind, error_bind, settle_error, hsp]

/-- Settles O42: the state the fault leaves is the one the first `k` of the frame's pushes left. -/
theorem callFaultKeepsEarlierPushes : Obligations.CallFaultKeepsEarlierPushes := by
  intro s k hinv hk hfit hbad i len hcall
  refine ⟨_, exec_call_of_unfit s hcall hk hfit hbad, State.raise_record _ _, ?_⟩
  have hsp : (s.advance len).get .sp = s.get .sp := by simp
  have hlen : ((callFrame s len).take k).length = k := List.length_take_of_le (by rw [callFrame_length]; omega)
  rw [State.raise_after, State.raise_record]
  refine ⟨rfl, State.pushedAll_config _ _, ?_, ?_, ?_, fun r hr => ?_, ?_, fun j hj => ?_, fun a ha => ?_⟩
  · rw [State.setStatus_mem, State.pushedAll_mem, Memory.setWordsDown_size, State.advance_mem]
  · rw [State.setStatus_get, State.pushedAll_get_of_ne _ _ (by decide), State.advance_get, if_pos rfl]
  · rw [State.setStatus_get, State.pushedAll_sp, hlen, hsp]
  · obtain ⟨hip, hne⟩ : r ≠ .ip ∧ r ≠ .sp := by simpa using hr
    rw [State.setStatus_get, State.pushedAll_get_of_ne _ _ hne, State.advance_get, if_neg hip]
  · rw [State.setStatus_sfc, State.pushedAll_sfc, hlen, State.advance_sfc, State.advance_config]
  · have hword := pushedAll_wordAt (s.advance len) ((callFrame s len).take k) hinv (by rwa [hlen, hsp]) (by omega)
      (hlen.symm ▸ hj)
    rw [State.setStatus_wordAt, ← hsp, hword]
    simp only [List.getD_eq_getElem?_getD, List.getElem?_take_of_lt hj]
  · rw [State.setStatus_byteAt]
    exact pushedAll_byteAt_of_outside (s.advance len) _ (by rwa [hlen, hsp])

/-! ## RET -/

/-- What the epilogue after ip's advance leaves is what RET leaves (R182, R187). -/
theorem returned_advance_returnResult (s : State) : ReturnResult s (s.advance 1).returned := by
  refine ⟨?_, ?_, ?_, ?_, ?_, ?_, ?_, ?_, ?_, ?_, ?_, ?_, ?_, ⟨rfl, rfl⟩, rfl, fun _ => rfl⟩
  all_goals simp [State.returned_get, State.returned_sfc]

/-- Settles O43: RET is the epilogue after ip's advance, which moves neither fp nor a byte. -/
theorem retRestoresFromTheFrame : Obligations.RetRestoresFromTheFrame := fun s hfit =>
  ⟨_, exec_ret_of_fit s hfit, returned_advance_returnResult s⟩

/-- Each slot is the one entry of its register, and none is sp's. -/
theorem find?_retSlots {slot : Reg × Nat} (h : slot ∈ retSlots) :
    slot.1 ≠ .sp ∧ retSlots.find? (fun x => x.1 = slot.1) = some slot := by
  revert slot
  decide

/-- Settles O44: the epilogue after ip's advance faults at the `k`-th pop; of the registers, a slot's is the popped word or
what the advance left, and fp and acc are in no slot. -/
theorem retFaultsAtFirstBadPop : Obligations.RetFaultsAtFirstBadPop := by
  intro s k hk hfit hbad
  have hfp : (s.advance 1).get .fp = s.get .fp := by simp
  have hacc : (s.advance 1).get .acc = s.get .acc := by simp
  obtain ⟨t, ht, hconfig, -, hmem, hsfc, hsp, hregs⟩ :=
    popState_of_unfit (s.get .ip) (s.advance 1) k (by rwa [hfp]) (by rwa [hfp]) (by rwa [hfp])
  rw [hfp] at ht hsp hregs
  have hexec : exec .ret s =
      .fault (t.raise (.outOfBounds (popAddr (s.get .fp) k) .word .read false (s.get .ip))) := by
    simp only [exec, execRet, ht, settle_error]
  refine ⟨_, hexec, State.raise_record _ _, ?_⟩
  rw [State.raise_after, State.raise_record]
  refine ⟨rfl, hsp, ?_, ?_, fun slot hslot hpopped => ?_, fun slot hslot hlater => ?_, ?_, hconfig, ?_, fun a => ?_⟩
  · exact (hregs .fp (by decide)).trans hfp
  · exact (hregs .acc (by decide)).trans hacc
  · obtain ⟨hne, hfind⟩ := find?_retSlots hslot
    have hreg := hregs slot.1 hne
    simp only [hfind, if_pos hpopped] at hreg
    exact hreg
  · obtain ⟨hne, hfind⟩ := find?_retSlots hslot
    have hreg := hregs slot.1 hne
    simp only [hfind, if_neg (Nat.not_lt.mpr hlater)] at hreg
    exact hreg.trans (State.advance_get s slot.1 1)
  · rw [State.setStatus_sfc, hsfc, retCounter, retCounter, hfp]
    rfl
  · rw [State.setStatus_mem, hmem, State.advance_mem]
  · rw [State.setStatus_byteAt, State.byteAt, hmem]
    rfl

/-! ## A call and the RET of its undisturbed frame (R188, R189) -/

/-- The callee's state `u` still holds the frame that a call instruction of `len` bytes built from `s`, and its fp (R183). -/
structure HoldsFrame (s : State) (len : Nat) (u : State) : Prop where
  config : u.config = s.config
  fp : u.get .fp = s.get .sp - 20
  words : ∀ k < 10, u.wordAt (pushAddr (s.get .sp) k) = (callFrame s len).getD k 0
  fit : PushesFit u.mem.size (s.get .sp) 10

theorem CallResult.holdsFrame {t u : State} {target : Word} (h : CallResult s len target t)
    (hfit : PushesFit s.mem.size (s.get .sp) 10) (hconfig : u.config = t.config) (hsize : u.mem.size = t.mem.size)
    (hfp : u.get .fp = t.get .fp)
    (hwords : ∀ k < 10, u.wordAt (pushAddr (s.get .sp) k) = t.wordAt (pushAddr (s.get .sp) k)) : HoldsFrame s len u := by
  obtain ⟨-, -, tfp, -, twords, -, ⟨tconfig, -⟩, tsize, -⟩ := h
  exact ⟨hconfig.trans tconfig, hfp.trans tfp, fun k hk => (hwords k hk).trans (twords k hk),
    by rwa [hsize, tsize]⟩

/-- The epilogue reads the frame's words from the last pushed to the first (R182, R183). -/
theorem popAddr_sub_twenty (a : Word) {k : Nat} (hk : k < 10) : popAddr (a - 20) k = pushAddr a (9 - k) := by
  rw [popAddr, pushAddr]
  bv_omega

/-- Above the frame the epilogue reads on from the caller's sp: first `argCount`, then the arguments (R182). -/
theorem popAddr_sub_twenty_add_ten (a : Word) (k : Nat) : popAddr (a - 20) (k + 10) = popAddr a k := by
  rw [popAddr, popAddr, show 2 * (k + 10) + 2 = 2 * k + 2 + 20 by ring, BitVec.ofNat_add]
  bv_omega

section HeldFrame

variable {u : State} (h : HoldsFrame s len u)
include h

theorem HoldsFrame.wordAt_popAddr {k : Nat} (hk : k < 10) :
    u.wordAt (popAddr (u.get .fp) k) = (callFrame s len).getD (9 - k) 0 := by
  rw [h.fp, popAddr_sub_twenty _ hk]
  exact h.words _ (by omega)

theorem HoldsFrame.argCount : u.wordAt (popAddr (u.get .fp) 10) = u.wordAt (s.get .sp + 2) := by
  rw [h.fp]
  exact congrArg u.wordAt (popAddr_sub_twenty_add_ten _ 0)

/-- The epilogue's pops fit where the call's pushes did and `argCount` and the arguments do. -/
theorem HoldsFrame.popsFit (hargs : PopsFit u.mem.size (s.get .sp) (1 + (u.wordAt (s.get .sp + 2)).toNat)) :
    PopsFit u.mem.size (u.get .fp) (11 + (u.wordAt (popAddr (u.get .fp) 10)).toNat) := by
  intro k hk
  rw [h.argCount] at hk
  rw [h.fp]
  by_cases hframe : k < 10
  · rw [popAddr_sub_twenty _ hframe]
    exact h.fit _ (by omega)
  · obtain ⟨j, rfl⟩ := Nat.exists_eq_add_of_le' (Nat.le_of_not_lt hframe)
    rw [popAddr_sub_twenty_add_ten]
    exact hargs j (by omega)

end HeldFrame

/-- The caller's state after RET: `v` is what RET leaves of a callee `u` that holds the frame of a call from `s` (R188, in the
form that holds for any counter). -/
structure Restored (s : State) (len : Nat) (u v : State) : Prop where
  saved : ∀ r ∈ savedRegs, v.get r = s.get r
  ip : v.get .ip = s.get .ip + BitVec.ofNat 16 len
  sp : v.get .sp = s.get .sp + 2 + 2 * u.wordAt (s.get .sp + 2)
  acc : v.get .acc = u.get .acc
  fp : v.get .fp = s.get .sp - 20 + (s.sfc + 9 * cntAmount s.config.cntStep + 2)
  sfc : v.sfc = s.sfc + 9 * cntAmount s.config.cntStep + 2 -
    (10 + u.wordAt (s.get .sp + 2)) * cntAmount s.config.cntStep

/-- RET of a held frame puts each of its words back where the call took it from (R188). -/
theorem ReturnResult.restored {u v : State} (hret : ReturnResult u v) (h : HoldsFrame s len u) : Restored s len u v := by
  obtain ⟨hip, h8, h7, h6, h5, h4, h3, h2, h1, hsp, hfp, hacc, hsfc, -, -⟩ := hret
  rw [h.argCount] at hsp hsfc
  rw [h.wordAt_popAddr (by decide)] at hip h8 h7 h6 h5 h4 h3 h2 h1 hfp hsfc
  refine ⟨?_, hip, ?_, hacc, ?_, ?_⟩
  · simpa only [savedRegs, List.forall_mem_cons, List.not_mem_nil, false_imp_iff, implies_true, and_true] using
      ⟨h1, h2, h3, h4, h5, h6, h7, h8⟩
  · rw [hsp, h.fp]
    ring
  · rw [hfp, h.fp]
    rfl
  · rw [hsfc, h.config]
    rfl

/-- A call, a callee that leaves its frame and fp alone, and RET. -/
theorem exec_ret_restored {t u : State} (hcall : IsCall i len) (hinv : s.Inv)
    (hfit : PushesFit s.mem.size (s.get .sp) 10) (hexec : exec i s = .next t) (hconfig : u.config = t.config)
    (hsize : u.mem.size = t.mem.size) (hfp : u.get .fp = t.get .fp)
    (hwords : ∀ k < 10, u.wordAt (pushAddr (s.get .sp) k) = t.wordAt (pushAddr (s.get .sp) k))
    (hargs : PopsFit u.mem.size (s.get .sp) (1 + (u.wordAt (s.get .sp + 2)).toNat)) :
    ∃ v, exec .ret u = .next v ∧ Restored s len u v := by
  obtain ⟨target, hresult⟩ := callResult_of_exec hcall hinv hfit hexec
  have hframe := hresult.holdsFrame hfit hconfig hsize hfp hwords
  obtain ⟨v, hv, hret⟩ := retRestoresFromTheFrame u (hframe.popsFit hargs)
  exact ⟨v, hv, hret.restored hframe⟩

/-- Settles O45: fp comes back as S + sfc + 9 * CNT_STEP - 18, which for a counter of fp - S is fp with CNT_STEP 2 and fp - 9
with CNT_STEP 1. -/
theorem callThenReturnRestores : Obligations.CallThenReturnRestores := by
  intro s t u i len hinv hfit hcall hexec hconfig hsize hfp hwords hargs
  obtain ⟨v, hv, hback⟩ := exec_ret_restored hcall hinv hfit hexec hconfig hsize hfp hwords hargs
  refine ⟨v, hv, hback.saved, hback.ip, hback.sp, hback.acc, fun hcounter htwo => ?_, fun hcounter hone => ?_⟩
  · rw [hback.fp, hcounter, htwo, cntAmount]
    ring
  · have hnine : v.get .fp = s.get .fp - 9 := by
      rw [hback.fp, hcounter, hone, cntAmount]
      ring
    rw [hnine]
    exact fun heq => absurd (sub_eq_self.mp heq) (by decide)

/-- Settles O46: with CNT_STEP 2 the marker is F - S + d + 20, so fp comes back as F + d, and the counter loses two bytes for
each of the 10 + n words popped after it, as sp gains them. -/
theorem repeatedCallsDriftByTwo : Obligations.RepeatedCallsDriftByTwo := by
  intro s t u i len F d hinv hfit hcall htwo hcounter hexec hconfig hsize hfp hwords hargs
  obtain ⟨v, hv, hback⟩ := exec_ret_restored hcall hinv hfit hexec hconfig hsize hfp hwords hargs
  refine ⟨v, hv, ?_, ?_⟩
  · rw [hback.fp, hcounter, htwo, cntAmount]
    ring
  · rw [hback.sfc, hback.sp, hcounter, htwo, cntAmount]
    ring

end Sys2Proof.Machine

/-! # Proofs: runs. The stop loops repeat, a run ends in a fault or with the host, or stays at its stop address (R250, R251). -/

namespace Sys2Proof

theorem decode_movLitReg (lit : Word) (r : Byte) :
    decode [0x10, hiByte lit, loByte lit, r] = .ok (.movLitReg lit (resolveReg r), []) := by
  rw [← joinBytes_hi_lo lit, hiByte_joinBytes, loByte_joinBytes]
  exact decode_byte_cons .movLitReg _

theorem decode_jmpNotEq (lit : Word) (t : Byte) :
    decode [0x15, hiByte lit, loByte lit, t] = .ok (.jmpNotEq lit t, []) := by
  rw [← joinBytes_hi_lo lit, hiByte_joinBytes, loByte_joinBytes]
  exact decode_byte_cons .jmpNotEq _

end Sys2Proof

namespace Sys2Proof.Machine

variable {s t : State}

/-! ## The stop loops (R251) -/

/-- Writing its old value back to ip undoes an advance. -/
theorem advance_set_ip_self (s : State) (n : Nat) : (s.advance n).set .ip (s.get .ip) = s := by
  refine State.eq_of_get_eq (fun r => ?_) rfl rfl rfl rfl
  by_cases hr : r = .ip <;> simp [hr]

theorem exec_movLitReg_ip_self (s : State) : exec (.movLitReg (s.get .ip) .ip) s = .next s := by
  rw [exec_movLitReg, advance_set_ip_self]

theorem exec_jmpNotEq_ip_self {k : Word} {target : Byte} (hk : k ≠ s.get .acc)
    (htarget : zeroExtend16 target = s.get .ip) : exec (.jmpNotEq k target) s = .next s := by
  rw [exec_jmpNotEq_of_ne s target hk, htarget, advance_set_ip_self]

/-- A literal that fits and one further byte that stands there: the operands of a stop loop are inside the Memory. -/
theorem operandsFit_word_byte {a : Word} {op hi lo b : Byte} {k : OperandKind} (hk : k.size = 1)
    (hword : (a + 1).toNat + 2 ≤ s.mem.size) (hbytes : BytesAt a [op, hi, lo, b] s) :
    OperandsFit s.mem.size (a + 1) [.literal16, k] := by
  have hlast : (a + 3).toNat < s.mem.size := (hbytes 3 (Nat.lt_succ_self 3)).1
  refine ⟨hword, ?_, trivial⟩
  rw [hk, BitVec.add_assoc]
  exact hlast

/-- A stop loop's step goes back to its own first byte and changes nothing on the way (R251). -/
theorem step_of_stopLoopAt (hrunning : s.status = .running) (hsize : s.mem.size ≤ Config.maxMemSize)
    (hloop : StopLoopAt (s.get .ip) s) : step s = .next s := by
  obtain ⟨hword, ⟨r, hr, hbytes⟩ | ⟨k, target, htarget, hk, hbytes⟩⟩ := hloop
  · have hdecode := decode_movLitReg (s.get .ip) r
    rw [hr] at hdecode
    rw [stepRunsWrappedInstruction s _ _ hrunning hsize hdecode hbytes (operandsFit_word_byte rfl hword hbytes)]
    exact exec_movLitReg_ip_self s
  · rw [stepRunsWrappedInstruction s _ _ hrunning hsize (decode_jmpNotEq k target) hbytes
      (operandsFit_word_byte rfl hword hbytes)]
    exact exec_jmpNotEq_ip_self hk htarget

/-! ## Runs in which every step completes -/

theorem stepN_succ_of_next (h : step s = .next t) (n : Nat) : stepN (n + 1) s = stepN n t := by
  simp only [stepN, h]

theorem stepN_of_step_self (h : step s = .next s) (n : Nat) : stepN n s = some s := by
  induction n with
  | zero => rfl
  | succ n ih => rw [stepN_succ_of_next h, ih]

/-- A RUNNING engine at a stop loop runs it for any number of steps and stays as it is (R251). -/
theorem repeats_of_stopLoopAt (hrunning : s.status = .running) (hsize : s.mem.size ≤ Config.maxMemSize)
    (hloop : StopLoopAt (s.get .ip) s) : step s = .next s ∧ ∀ n, stepN n s = some s :=
  have hstep := step_of_stopLoopAt hrunning hsize hloop
  ⟨hstep, stepN_of_step_self hstep⟩

/-- Settles O16: where its literal can be fetched, either loop is a stop loop at ip. -/
theorem stopLoopsRepeatForever : Obligations.StopLoopsRepeatForever := fun _ hrunning hsize =>
  ⟨fun hbytes ⟨hword, _⟩ => repeats_of_stopLoopAt hrunning hsize ⟨hword, .inl ⟨0, rfl, hbytes⟩⟩,
    fun k a hip hk hbytes ⟨hword, _⟩ =>
      repeats_of_stopLoopAt hrunning hsize ⟨hword, .inr ⟨k, a, hip.symm, hk, hbytes⟩⟩⟩

/-! ## How a run ends (R250) -/

theorem runN_succ_of_next (h : step s = .next t) (n : Nat) : runN (n + 1) s = runN n t := by
  rw [runN_succ, afterStep_of_next s h]

/-- A fault's state is the last of a run, however many steps the host still asks for (R97, R214). -/
theorem runN_succ_of_fault {f : Fault} (hrunning : s.status = .running) (h : step s = .fault f) (n : Nat) :
    runN (n + 1) s = f.after := by
  obtain ⟨hfaulted, -⟩ := faultRecordIsTrue s f hrunning h
  rw [runN_succ, afterStep_of_fault s h, runN_of_fixed _ _ (afterStep_of_faulted _ hfaulted)]

/-- Settles O52, by induction on the number of steps: a first step that faults ends the run there; after one that
completes the engine is RUNNING still, and the rest of the run ends as it does from the state reached. -/
theorem runEndsByFaultOrHost : Obligations.RunEndsByFaultOrHost := by
  intro s n hrunning
  induction n generalizing s with
  | zero => exact .inl ⟨rfl, runEnd_running s hrunning⟩
  | succ n ih =>
    rcases everyStepCompletesOrFaults s with ⟨t, hstep⟩ | ⟨f, hstep⟩
    · obtain ⟨-, hkeeps⟩ := step_next_keeps hstep
      rw [stepN_succ_of_next hstep, runN_succ_of_next hstep]
      refine (ih t (hkeeps.status.trans hrunning)).imp_right ?_
      rintro ⟨k, hk, u, f, hreach, hfault, hend, hstays⟩
      refine ⟨k + 1, by omega, u, f, by rw [stepN_succ_of_next hstep, hreach], hfault, hend, fun m hm => ?_⟩
      obtain ⟨m, rfl⟩ := Nat.exists_eq_add_one_of_ne_zero (Nat.ne_zero_of_lt hm)
      rw [runN_succ_of_next hstep]
      exact hstays m (Nat.lt_of_succ_lt_succ hm)
    · have hlater := runN_succ_of_fault hrunning hstep
      obtain ⟨hfaulted, -⟩ := faultRecordIsTrue s f hrunning hstep
      refine .inr ⟨0, n.succ_pos, s, f, rfl, hstep, ?_, fun m hm => ?_⟩
      · rw [hlater, runEnd_faulted _ hfaulted]
      · obtain ⟨m, rfl⟩ := Nat.exists_eq_add_one_of_ne_zero hm.ne'
        exact hlater m

/-! ## A run at its stop address (R250, R251) -/

/-- No step changes the capacity of the Memory (R50), a fault no more than a completed one. -/
theorem afterStep_memSize (s : State) : s.afterStep.mem.size = s.mem.size := by
  rcases everyStepCompletesOrFaults s with ⟨t, hstep⟩ | ⟨f, hstep⟩
  · obtain ⟨-, hkeeps⟩ := step_next_keeps hstep
    rw [afterStep_of_next s hstep, hkeeps.size]
  · cases hstatus : s.status with
    | faulted rec => rw [afterStep_of_faulted s hstatus]
    | running =>
      obtain ⟨t, rec, hkeeps, rfl⟩ := step_fault_raised hstatus hstep
      rw [afterStep_of_fault s hstep, State.raise_after, State.setStatus_mem, hkeeps.size]

theorem runN_memSize (s : State) (n : Nat) : (runN n s).mem.size = s.mem.size := by
  induction n generalizing s with
  | zero => rfl
  | succ n ih => rw [runN_succ, ih, afterStep_memSize]

/-- Settles O53: the state at the stop address is one its step leaves as it is. -/
theorem stoppedRunStays : Obligations.StoppedRunStays := by
  intro stop n s t hsize hstops m hm
  obtain ⟨rfl, hrunning, rfl, hloop, -⟩ := hstops
  have hstep := step_of_stopLoopAt hrunning (by rwa [runN_memSize]) hloop
  rw [← Nat.add_sub_of_le hm, runN_add]
  exact runN_of_fixed _ _ (afterStep_of_next _ hstep)

end Sys2Proof.Machine
